-- ==== Sys2Proof/Word.lean ====
section
/-! DEFINITION. The bit-level words of the block: a byte and a 7-bit payload group. Values and indices are
natural numbers, as 00_scope.md R11 to R14 and 10_state.md R37 have them. -/

namespace Sys2Proof

/-- A byte is 8 bits (20_memory.md R51). -/
abbrev Byte := BitVec 8

/-- A payload group `G = byte[6:0]` is 7 bits (30_encoding.md R70). -/
abbrev Group := BitVec 7

end Sys2Proof
end

