-- ==== Sys2Proof/Config.lean ====
section
/-! DEFINITION. What is fixed when the block is built (00_scope.md R6 to R10) and the free values, which the
spec leaves not defined. -/

namespace Sys2Proof

/-- A width parameter is a positive integer or the symbol `inf` (00_scope.md R6, R8). -/
inductive Width where
  | finite (bits : Nat)
  | inf
  deriving DecidableEq, Repr

/-- The build parameters `W`, `N` and `DECODE_STRICT` (00_scope.md R6, R8, R9); there is no other (R10). -/
structure Params where
  valueBits    : Width
  lenBits      : Width
  decodeStrict : Bool
  deriving DecidableEq, Repr

namespace Params

/-- The hardware defaults of 00_scope.md R6, R8, R9: `W = 64`, `N = 32`, strict. -/
def default : Params := { valueBits := .finite 64, lenBits := .finite 32, decodeStrict := true }

/-- The reference (source-exact) build of 00_scope.md R6 and R8, with the default strictness. -/
def reference : Params := { valueBits := .inf, lenBits := .inf, decodeStrict := true }

end Params

namespace Config

/-- What DEC's accumulator holds after an error: not defined (60_exceptions.md R154, log 3). The argument
is the counter `dec.draws`. -/
opaque freeAcc : Nat → Nat

/-- What DEC's shift register holds after an error: not defined (60_exceptions.md R154, log 3). -/
opaque freeShift : Nat → Nat

/-- What DEC's index holds after an error: not defined (60_exceptions.md R154, log 3). -/
opaque freeIdx : Nat → Nat

end Config

end Sys2Proof
end

