-- ==== Sys2Proof/Syntax.lean ====
section
/-! DEFINITION. The instructions, one constructor per row of the opcode table, and the two forms in which they
are presented: the fields of the command port and a byte of an encoded value. -/

namespace Sys2Proof

/-- One constructor per row of spec/opcode_table.json. The first three are the commands of 30_encoding.md
R79, the last two the byte classes of R71. -/
inductive Instr where
  /-- ENCODE with its signed operand (R83). -/
  | encode (v : Int)
  /-- DECODE with its input sequence (R84). -/
  | decode (s : List Byte)
  /-- PARSE with its input sequence (R84). -/
  | parse (s : List Byte)
  /-- A CONT byte `1ggggggg` and its group. -/
  | cont (g : Group)
  /-- A TERM byte `0ggggggg` and its group. -/
  | term (g : Group)
  deriving DecidableEq, Repr

/-- What the HOST presents on the command port (30_encoding.md R78, 10_state.md R35): the opcode, the raw
`cmd_v`, `cmd_len`, and the IN buffer behind the read port. For a finite `W` the field `v` is the
`(W+1)`-bit pattern read as an unsigned number; for `W = inf` it is the integer itself (log 16). -/
structure Command where
  op  : BitVec 2
  v   : Int
  len : Nat
  buf : List Byte
  deriving DecidableEq, Repr

/-- The two encodings of the block (30_encoding.md): a command on the command port, or a byte. -/
inductive Wire where
  | cmd (c : Command)
  | byte (b : Byte)
  deriving DecidableEq, Repr

end Sys2Proof
end

