-- ==== Sys2Proof/WellFormed.lean ====
section
/-! DEFINITION. Which parameters make a block (00_scope.md R6, R8) and which operands can be presented to it
(30_encoding.md R83, R84). -/

namespace Sys2Proof

/-- `x` is a number of the width: `0 .. 2^bits - 1`, or any natural number for `inf` (00_scope.md R6, R8). -/
def Width.holds : Width → Nat → Bool
  | .finite n, x => decide (x < 2 ^ n)
  | .inf, _ => true

/-- `L_MAX = ceil(W / 7)`, or none for `W = inf` (00_scope.md R7). -/
def Params.lMax (p : Params) : Option Nat :=
  match p.valueBits with
  | .finite w => some ((w + 6) / 7)
  | .inf => none

/-- The constraints of 00_scope.md R6 and R8: `W` and `N` positive, and `2^N - 1 >= L_MAX`. -/
def Params.wellFormed (p : Params) : Bool :=
  match p.valueBits, p.lenBits with
  | .finite w, .finite n => decide (0 < w) && decide (0 < n) && decide ((w + 6) / 7 ≤ 2 ^ n - 1)
  | .finite w, .inf => decide (0 < w)
  | .inf, .finite _ => false
  | .inf, .inf => true

/-- The operands the ports can carry: for ENCODE `-2^W .. 2^W - 1` (30_encoding.md R83), for DECODE and PARSE
a sequence of at most `2^N - 1` bytes (R84); every byte is legal (R82). -/
def Instr.wellFormed (p : Params) : Instr → Bool
  | .encode v =>
    match p.valueBits with
    | .finite w => decide (-(2 ^ w : Int) ≤ v) && decide (v < (2 ^ w : Int))
    | .inf => true
  | .decode s => p.lenBits.holds s.length
  | .parse s => p.lenBits.holds s.length
  | .cont _ => true
  | .term _ => true

end Sys2Proof
end

