-- ==== Sys2Proof/Decode.lean ====
section
/-! DEFINITION. Decoding and encoding: the byte format (30_encoding.md R70, R71), the command format (R78 to
R80, R83, R84), and the host's numbering of the opcode table. The opcodes and port numbers are the spec's own
choice (92_eei_decisions.md D7, D8). -/

namespace Sys2Proof

/-! ### The byte format -/

/-- The continuation bit `C = byte[7]` (30_encoding.md R70, 20_memory.md R56). -/
def contBit (b : Byte) : Bool := b.getLsbD 7

/-- The payload group `G = byte[6:0]` (30_encoding.md R70). -/
def groupOf (b : Byte) : Group := b.extractLsb' 0 7

/-- The byte `{C, G}` (30_encoding.md R70). -/
def byteOf (c : Bool) (g : Group) : Byte := BitVec.ofBool c ++ g

/-- Every byte is a CONT or a TERM byte (30_encoding.md R71). -/
def decodeByte (b : Byte) : Instr := if contBit b then .cont (groupOf b) else .term (groupOf b)

/-! ### The command format -/

/-- Why the wires do not carry a command. -/
inductive DecodeError where
  /-- Opcode `11` selects no operation (30_encoding.md R80). -/
  | reservedOpcode
  /-- `cmd_v` is no `(W+1)`-bit pattern (30_encoding.md R83). -/
  | operandTooWide
  /-- `cmd_len` is no `N`-bit number (30_encoding.md R84). -/
  | lengthTooWide
  /-- The IN buffer holds fewer than `cmd_len` bytes (70_reset_and_hazards.md R173). -/
  | bufferTooShort
  deriving DecidableEq, Repr

def opEncode : BitVec 2 := 0b00#2
def opDecode : BitVec 2 := 0b01#2
def opParse : BitVec 2 := 0b10#2

/-- `v = cmd_v[W-1:0] - cmd_v[W] * 2^W` for a finite `W`; for `W = inf` the port carries the integer
(30_encoding.md R83). -/
def decodeOperand (w : Width) (x : Int) : Except DecodeError Int :=
  match w with
  | .inf => .ok x
  | .finite n =>
    if 0 ≤ x ∧ x < 2 ^ (n + 1) then .ok (x % 2 ^ n - x / 2 ^ n * 2 ^ n) else .error .operandTooWide

/-- The input sequence of DECODE and PARSE: the first `cmd_len` bytes of IN (30_encoding.md R78, R84). -/
def decodeInput (w : Width) (len : Nat) (buf : List Byte) : Except DecodeError (List Byte) :=
  if w.holds len = false then .error .lengthTooWide
  else if buf.length < len then .error .bufferTooShort
  else .ok (buf.take len)

/-- The opcode map of 30_encoding.md R79. A field an operation does not use is ignored (R78). -/
def decodeCommand (p : Params) (c : Command) : Except DecodeError Instr :=
  if c.op = opEncode then (decodeOperand p.valueBits c.v).map .encode
  else if c.op = opDecode then (decodeInput p.lenBits c.len c.buf).map .decode
  else if c.op = opParse then (decodeInput p.lenBits c.len c.buf).map .parse
  else .error .reservedOpcode

/-- The decoder of both formats. -/
def decode (p : Params) : Wire → Except DecodeError Instr
  | .cmd c => decodeCommand p c
  | .byte b => .ok (decodeByte b)

/-! ### The encoder -/

/-- `cmd_v` for an operand: its `(W+1)`-bit two's-complement pattern (30_encoding.md R83). -/
def encodeOperand (w : Width) (v : Int) : Int :=
  match w with
  | .inf => v
  | .finite n => v % 2 ^ (n + 1)

/-- The wires of an instruction; unused command fields are zero. -/
def encode (p : Params) : Instr → Wire
  | .encode v => .cmd { op := opEncode, v := encodeOperand p.valueBits v, len := 0, buf := [] }
  | .decode s => .cmd { op := opDecode, v := 0, len := s.length, buf := s }
  | .parse s => .cmd { op := opParse, v := 0, len := s.length, buf := s }
  | .cont g => .byte (byteOf true g)
  | .term g => .byte (byteOf false g)

/-! ### The host's numbering of the opcode table -/

/-- The wires that a table word stands for (log 14). The CMD rows have 2 bits and the BYTE rows 8, on different
ports, so their numbers overlap: a word below 3, or of fewer than 8 bits, is read as an opcode with zero operand
fields, any other word below 256 as a byte. -/
def tableWire (nbits w : Nat) : Option Wire :=
  if w < 3 ∨ (nbits < 8 ∧ w < 4) then some (.cmd { op := BitVec.ofNat 2 w, v := 0, len := 0, buf := [] })
  else if nbits = 8 ∧ w < 256 then some (.byte (BitVec.ofNat 8 w))
  else none

/-- The instruction the decoder reads from a table word. -/
def decodeTableWord (nbits w : Nat) : Option Instr :=
  match tableWire nbits w with
  | some x => (decode Params.default x).toOption
  | none => none

end Sys2Proof
end

