-- ==== Sys2Proof/Machine/State.lean ====
section
/-! DEFINITION. The state of the block as the spec gives it (10_state.md R26, R27), the outside world as plain
data (R36), the reasons a step can stop, and the state after reset (R34). -/

namespace Sys2Proof.Machine

/-- A byte space, IN or OUT, as (index, byte) cells with strictly rising indices; an unlisted index has no
value (20_memory.md R50, R51; log 9). -/
abbrev Memory := List Host.Cell

/-- `IDLE` or `RUN` (10_state.md R26, R27). -/
inductive UnitState where
  | idle
  | run
  deriving DecidableEq, Repr

/-- Which operation DEC accepted last (10_state.md R27). -/
inductive DecMode where
  | decode
  | parse
  deriving DecidableEq, Repr

/-- The four errors (60_exceptions.md R145). The reserved codes 5 to 7 have no constructor (93 U2). -/
inductive Err where
  | invalidInput
  | truncatedInput
  | trailingData
  | valueOverflow
  deriving DecidableEq, Repr

/-- The two units (10_state.md R20). -/
inductive Agent where
  | enc
  | dec
  deriving DecidableEq, Repr

/-- Which agent moves in a step: the reset step, the HOST presenting its next command, ENC, or DEC
(10_state.md R21, R36; log 5). -/
inductive Turn where
  | reset
  | host
  | enc
  | dec
  deriving DecidableEq, Repr

/-- The complete state of ENC (10_state.md R26). `err = none` is code 0, None (30_encoding.md R81). -/
structure Enc where
  state : UnitState
  rem   : Nat
  len   : Nat
  done  : Bool
  err   : Option Err
  out   : Memory
  deriving DecidableEq, Repr

/-- The complete state of DEC (10_state.md R27), and the model's own counter `draws`, which picks the free
values of log 3. -/
structure Dec where
  state    : UnitState
  mode     : DecMode
  inBuf    : Memory
  inLen    : Nat
  idx      : Nat
  acc      : Nat
  shift    : Nat
  done     : Bool
  err      : Option Err
  value    : Nat
  consumed : Nat
  draws    : Nat
  deriving DecidableEq, Repr

/-- The HOST (10_state.md R36): the commands it has still to present, the head standing on the command port,
and the turns of the next steps (log 5). -/
structure HostIn where
  cmds  : List Command
  turns : List Turn
  deriving DecidableEq, Repr

/-- The machine: the build parameters, which no step changes (00_scope.md R10; log 1), the two units, the HOST. -/
structure State where
  build : Params
  enc   : Enc
  dec   : Dec
  host  : HostIn
  deriving DecidableEq, Repr

/-- How an outcome of a command reads (00_scope.md section 4): a byte sequence for ENCODE, a value for DECODE, a
value and the remainder for PARSE, or an error without payload (10_state.md R29). -/
inductive CmdResult where
  | bytes (bs : List Byte)
  | value (v : Nat)
  | pair (v : Nat) (remainder : List Byte)
  | error (e : Err)
  deriving DecidableEq, Repr

/-- Stops that the spec's own bounds rule out. -/
inductive Fault where
  /-- DEC would read IN where `MemRead` is not defined, at or beyond `dec.in_len` (20_memory.md R54). Raised by
  the DEC-scan step when its index is beyond the length. Safe; no state of the invariant reaches it (log 9). -/
  | readOutsideInput
  /-- ENC would write OUT beyond its capacity `L_MAX` (20_memory.md R59). Raised by the ENC-emit step. Safe; no
  state of the invariant reaches it (log 9). -/
  | writeOutsideOutput
  deriving DecidableEq, Repr

/-- What the model gives no meaning. -/
inductive Refusal where
  /-- An instruction that has no meaning yet. Raised by `exec`. Safe. -/
  | notModelled (mnemonic : String)
  /-- A HOST turn finds opcode `11` on the command port (30_encoding.md R80, 93 U1). Safe (log 7). -/
  | reservedOpcode
  /-- A HOST turn finds a `cmd_v` that the port cannot carry (30_encoding.md R83). Safe (log 8). -/
  | operandTooWide
  /-- A HOST turn finds a `cmd_len` that the port cannot carry (30_encoding.md R84). Safe (log 8). -/
  | lengthTooWide
  /-- A HOST turn finds a buffer shorter than `cmd_len` (70_reset_and_hazards.md R173). Safe (log 8). -/
  | bufferTooShort
  deriving DecidableEq, Repr

/-- ENC after reset (10_state.md R34). `rem` is unspecified there; 0 is the model's choice (log 2). -/
def Enc.reset : Enc :=
  { state := .idle, rem := 0, len := 0, done := false, err := none, out := [] }

/-- DEC after reset (10_state.md R34). All but `state`, `done` and `err` is unspecified there; the values
are the model's choice (log 2). -/
def Dec.reset : Dec :=
  { state := .idle, mode := .decode, inBuf := [], inLen := 0, idx := 0, acc := 0, shift := 0,
    done := false, err := none, value := 0, consumed := 0, draws := 0 }

/-- The state after reset of the block built with parameters `p`. -/
def State.resetOf (p : Params) : State :=
  { build := p, enc := .reset, dec := .reset, host := { cmds := [], turns := [] } }

/-- The state after reset of the default hardware build (00_scope.md R6, R8, R9). -/
def State.reset : State := State.resetOf Params.default

end Sys2Proof.Machine
end

