-- ==== Sys2Proof/Machine/Operands.lean ====
section
/-! DEFINITION. The arithmetic of the block on natural numbers (00_scope.md R11 to R14), the byte ENC emits
(40_encode.md R92), the width check (41_decode.md R118), and the pieces of an encoded value (30_encoding.md
R72 to R74). -/

namespace Sys2Proof.Machine

/-- The group `v mod 128 = v[6:0]` (00_scope.md R11). -/
def lowGroup (v : Nat) : Group := BitVec.ofNat 7 (v % 128)

/-- `v >> 7 = floor(v / 128)` (00_scope.md R12). -/
def dropGroup (v : Nat) : Nat := v >>> 7

/-- A group at its position, `g << shift`, exact (00_scope.md R13). -/
def placeGroup (g : Group) (shift : Nat) : Nat := g.toNat <<< shift

/-- The number of bits that write `v` in binary (00_scope.md R14). -/
def bitLength (v : Nat) : Nat := if v = 0 then 0 else v.log2 + 1

/-- The byte an ENC-emit step writes: `{c, rem[6:0]}` with `c = 1` iff `rem >= 128` (40_encode.md R92). -/
def emitByte (rem : Nat) : Byte :=
  if rem < 128 then byteOf false (lowGroup rem) else byteOf true (lowGroup rem)

/-- The width check `(x >> W) != 0`, false for every `x` with `W = inf` (41_decode.md R118, 00_scope.md R6). -/
def overflowsWidth (w : Width) (x : Nat) : Bool :=
  match w with
  | .finite n => x >>> n != 0
  | .inf => false

/-- The accumulator after a group, `acc | (g << shift)` (41_decode.md R112). -/
def addGroup (acc : Nat) (g : Group) (shift : Nat) : Nat := acc ||| placeGroup g shift

/-- A free natural number as the content of a register of the width (10_state.md R37; log 3). -/
def clipTo (w : Width) (x : Nat) : Nat :=
  match w with
  | .finite n => x % 2 ^ n
  | .inf => x

/-- `L_MAX` bounds an index of OUT (20_memory.md R50, R59). -/
def outIndexExists (p : Params) (i : Nat) : Bool :=
  match p.lMax with
  | some m => decide (i < m)
  | none => true

/-! ### Encoded values -/

/-- A varint: CONT bytes and then exactly one TERM byte (30_encoding.md R72). -/
def isVarint : List Byte → Bool
  | [] => false
  | [b] => !contBit b
  | b :: bs => contBit b && isVarint bs

/-- The sum of `G(b_i) * 2^(7i)` with the first byte at index `i` (30_encoding.md R73). -/
def groupsValueFrom (i : Nat) : List Byte → Nat
  | [] => 0
  | b :: bs => (groupOf b).toNat * 2 ^ (7 * i) + groupsValueFrom (i + 1) bs

/-- The value of the groups of a sequence (30_encoding.md R73, 40_encode.md R94). -/
def groupsValue (bs : List Byte) : Nat := groupsValueFrom 0 bs

/-- `max(1, ceil(bit_length(v) / 7))` (30_encoding.md R74, 40_encode.md R96). -/
def varintLength (v : Nat) : Nat := max 1 ((bitLength v + 6) / 7)

/-- The canonical varint of `v` (30_encoding.md R74). -/
def canonicalVarint (v : Nat) : List Byte :=
  (List.range (varintLength v)).map fun i =>
    byteOf (decide (i + 1 < varintLength v)) (lowGroup (v >>> (7 * i)))

end Sys2Proof.Machine
end

