-- ==== Sys2Proof/Machine/Flags.lean ====
section
/-! DEFINITION. The block has no flags register (10_state.md R25); what it has are the status fields of each
unit (R28) and the error codes (30_encoding.md R81). -/

namespace Sys2Proof.Machine

/-- The 3-bit code of `u.err` (30_encoding.md R81). -/
def errCode : Option Err → BitVec 3
  | none => 0
  | some .invalidInput => 1
  | some .truncatedInput => 2
  | some .trailingData => 3
  | some .valueOverflow => 4

/-- `enc.busy` is a function of `enc.state` (10_state.md R28). -/
def Enc.busy (e : Enc) : Bool := e.state == .run

/-- `dec.busy` is a function of `dec.state` (10_state.md R28). -/
def Dec.busy (d : Dec) : Bool := d.state == .run

/-- Which unit a command addresses (30_encoding.md R79). -/
def opUnit (op : BitVec 2) : Option Agent :=
  if op = opEncode then some .enc
  else if op = opDecode ∨ op = opParse then some .dec
  else none

/-- A unit accepts a command only in `IDLE` (70_reset_and_hazards.md R175). -/
def unitIdle (s : State) : Agent → Bool
  | .enc => s.enc.state == .idle
  | .dec => s.dec.state == .idle

/-- `cmd_ready` of an opcode while reset is not held: the addressed unit is `IDLE`, and 0 for `11`
(30_encoding.md R79). -/
def cmdReady (s : State) (op : BitVec 2) : Bool :=
  match opUnit op with
  | some u => unitIdle s u
  | none => false

end Sys2Proof.Machine
end

