-- ==== Sys2Proof/Machine/Ops.lean ====
section
/-! DEFINITION. The named operations over the byte spaces and the units that the steps share: reading and
writing a byte, beginning a command, ending it with Ok, and ending it with an error (60_exceptions.md R151). -/

namespace Sys2Proof.Machine

/-! ### Byte spaces -/

/-- The byte at an index, if there is one. -/
def Memory.read : Memory → Nat → Option Byte
  | [], _ => none
  | (k, x) :: m, a => if a = k then some x else Memory.read m a

/-- The space with byte `b` at index `a`, in canonical form. -/
def Memory.write : Memory → Nat → Byte → Memory
  | [], a, b => [(a, b)]
  | (k, x) :: m, a, b =>
    if a < k then (a, b) :: (k, x) :: m
    else if a = k then (a, b) :: m
    else (k, x) :: Memory.write m a b

/-- The canonical form: indices strictly rising. An unlisted index has no value, so no entry can equal what
it reads as. -/
def Memory.wf : Memory → Bool
  | [] => true
  | [_] => true
  | (a, _) :: (b, y) :: m => decide (a < b) && Memory.wf ((b, y) :: m)

/-- A byte sequence laid out from index `i`. -/
def Memory.ofBytesFrom (i : Nat) : List Byte → Memory
  | [] => []
  | b :: bs => (i, b) :: Memory.ofBytesFrom (i + 1) bs

/-- A byte sequence as a space: its byte `i` at index `i` (20_memory.md R51). -/
def Memory.ofBytes (bs : List Byte) : Memory := Memory.ofBytesFrom 0 bs

/-- The bytes of a space in index order. -/
def Memory.bytes (m : Memory) : List Byte := m.map Prod.snd

/-- The space is a byte sequence of length `n`: every index below `n` and no other has a byte. -/
def Memory.isSequence (m : Memory) (n : Nat) : Bool :=
  decide (m = Memory.ofBytes m.bytes) && decide (m.length = n)

/-- The `n` bytes from index `i` on, if all of them are there. -/
def Memory.readSeq (m : Memory) (i : Nat) : Nat → Option (List Byte)
  | 0 => some []
  | n + 1 =>
    match Memory.read m i, Memory.readSeq m (i + 1) n with
    | some b, some bs => some (b :: bs)
    | _, _ => none

/-- `MemRead(IN, i, 1)`, defined only for `i < dec.in_len` (20_memory.md R54). -/
def memReadIn (d : Dec) (i : Nat) : Option Byte :=
  if i < d.inLen then d.inBuf.read i else none

/-- `MemWrite(OUT, enc.len, 1, b)` and `enc.len <- enc.len + 1` (20_memory.md R57, 40_encode.md R92). -/
def Enc.append (e : Enc) (b : Byte) : Enc :=
  { e with out := e.out.write e.len b, len := e.len + 1 }

/-! ### Errors: entry, and the acceptance that clears them -/

/-- ENC's part of error entry. `enc.len` and OUT are emptied, as every failed ENCODE leaves them
(60_exceptions.md R146, R152). `enc.rem` is not written (40_encode.md R91; log 4). -/
def Enc.fail (e : Enc) (x : Err) : Enc :=
  { e with len := 0, out := [], err := some x, done := true, state := .idle }

/-- DEC's part of error entry. The index, accumulator and shift are not defined afterwards (60_exceptions.md
R154; 41_decode.md R112): they hold free values of their widths (log 3). `value` and `consumed` are not written
(R112, 90_conflicts.md C9). -/
def Dec.fail (p : Params) (d : Dec) (x : Err) : Dec :=
  { d with
    err := some x, done := true, state := .idle
    acc := clipTo p.valueBits (Config.freeAcc d.draws)
    shift := Config.freeShift d.draws
    idx := clipTo p.lenBits (Config.freeIdx d.draws)
    draws := d.draws + 1 }

/-- `raise E`, the one error entry of the block (60_exceptions.md R151): the unit's `err` and `done` are
written and it goes to `IDLE`; control goes nowhere and the other unit is not affected. -/
def raise (u : Agent) (x : Err) (s : State) : State :=
  match u with
  | .enc => { s with enc := s.enc.fail x }
  | .dec => { s with dec := s.dec.fail s.build x }

/-- The acceptance of a non-negative ENCODE operand (40_encode.md R91). It clears `done` and `err`: there is no
other return from an error (60_exceptions.md R155). -/
def Enc.begin (e : Enc) (v : Nat) : Enc :=
  { e with rem := v, len := 0, out := [], done := false, err := none, state := .run }

/-- DEC-accept (41_decode.md R111). `value` and `consumed` keep what they held. It clears `done` and `err`
(60_exceptions.md R155). -/
def Dec.begin (d : Dec) (m : DecMode) (s : List Byte) : Dec :=
  { d with
    mode := m, inBuf := .ofBytes s, inLen := s.length, idx := 0, acc := 0, shift := 0
    done := false, err := none, state := .run }

/-- The accept step of DEC, or nothing while DEC is busy: the command is held off (41_decode.md R111,
70_reset_and_hazards.md R175). -/
def decAccept (m : DecMode) (bs : List Byte) (s : State) : Host.Outcome State Fault Refusal :=
  match s.dec.state with
  | .idle => .next { s with dec := s.dec.begin m bs }
  | .run => .next s

/-- The accept step of ENC, or nothing while ENC is busy (40_encode.md R91, 70_reset_and_hazards.md R175). -/
def encAccept (v : Int) (s : State) : Host.Outcome State Fault Refusal :=
  match s.enc.state with
  | .idle => if v < 0 then .next (raise .enc .invalidInput s) else .next { s with enc := s.enc.begin v.toNat }
  | .run => .next s

/-! ### The scan step -/

/-- DEC takes a byte's group: accumulator and index move on (41_decode.md R112). -/
def Dec.take (d : Dec) (g : Group) : Dec :=
  { d with acc := addGroup d.acc g d.shift, idx := d.idx + 1 }

/-- The start of a DEC-scan step that is to use the byte at `dec.idx` (41_decode.md R112, 60_exceptions.md
R153): nothing in `IDLE`; at the end of the input `TruncatedInput`; beyond it the read is not defined (20_memory.md
R54); then the width check; then `k` goes on with the group taken. -/
def scanWith (g : Group) (k : State → Host.Outcome State Fault Refusal) (s : State) :
    Host.Outcome State Fault Refusal :=
  match s.dec.state with
  | .idle => .next s
  | .run =>
    if s.dec.idx = s.dec.inLen then .next (raise .dec .truncatedInput s)
    else if s.dec.inLen < s.dec.idx then .fault .readOutsideInput
    else if overflowsWidth s.build.valueBits (placeGroup g s.dec.shift) then
      .next (raise .dec .valueOverflow s)
    else k { s with dec := s.dec.take g }

/-- After a CONT byte: the shift moves on by 7 (41_decode.md R112). -/
def Dec.goOn (d : Dec) : Dec := { d with shift := d.shift + 7 }

/-- After a TERM byte: the command ends with `Ok` (41_decode.md R112). -/
def Dec.finish (d : Dec) : Dec :=
  { d with value := d.acc, consumed := d.idx, done := true, err := none, state := .idle }

/-- The trailing-data test after the TERM byte has been taken (41_decode.md R112, R115). -/
def trailing (s : State) : Bool :=
  s.dec.mode == .decode && s.build.decodeStrict && decide (s.dec.idx < s.dec.inLen)

/-! ### Reset -/

/-- The reset step (70_reset_and_hazards.md R170, R171): both units take the values of reset; the build
parameters stay, what the HOST will do next is the HOST's own, and the counter of free values goes on (log 3). -/
def resetStep (s : State) : State :=
  { s with enc := .reset, dec := { Dec.reset with draws := s.dec.draws } }

end Sys2Proof.Machine
end

