-- ==== Sys2Proof/Machine/DecodeParse.lean ====
section
/-! DEFINITION. The commands of the DEC unit: DECODE and PARSE. -/

namespace Sys2Proof.Machine

/-- DECODE: the DEC-accept step with `dec.mode <- DECODE` (41_decode.md R111, R113). -/
def execDecode (bs : List Byte) (s : State) : Host.Outcome State Fault Refusal := decAccept .decode bs s

/-- PARSE: the DEC-accept step with `dec.mode <- PARSE` (41_decode.md R111, 42_parse.md R132). -/
def execParse (bs : List Byte) (s : State) : Host.Outcome State Fault Refusal := decAccept .parse bs s

end Sys2Proof.Machine
end

