-- ==== Sys2Proof/Machine/Encode.lean ====
section
/-! DEFINITION. The ENC unit: ENCODE and the ENC-emit step. -/

namespace Sys2Proof.Machine

/-- ENCODE: the ENC-accept step (40_encode.md R91). -/
def execEncode (v : Int) (s : State) : Host.Outcome State Fault Refusal := encAccept v s

/-- The ENC-emit step (40_encode.md R92); nothing in `IDLE`. -/
def encEmit (s : State) : Host.Outcome State Fault Refusal :=
  match s.enc.state with
  | .idle => .next s
  | .run =>
    if outIndexExists s.build s.enc.len = false then .fault .writeOutsideOutput
    else if s.enc.rem < 128 then
      .next { s with enc :=
        { s.enc.append (emitByte s.enc.rem) with done := true, err := none, state := .idle } }
    else
      .next { s with enc :=
        { s.enc.append (emitByte s.enc.rem) with rem := dropGroup s.enc.rem } }

end Sys2Proof.Machine
end

