-- ==== Sys2Proof/Machine/Scan.lean ====
section
/-! DEFINITION. The byte classes as DEC meets them: the DEC-scan step on a CONT byte and on a TERM byte
(30_encoding.md R71, 41_decode.md R112; log 12). -/

namespace Sys2Proof.Machine

/-- A CONT byte: add its group at the current shift and go on (41_decode.md R112). -/
def execCont (g : Group) (s : State) : Host.Outcome State Fault Refusal :=
  scanWith g (fun t => .next { t with dec := t.dec.goOn }) s

/-- A TERM byte: add its group and stop, with `TrailingData` where the test says so (41_decode.md R112,
R115). -/
def execTerm (g : Group) (s : State) : Host.Outcome State Fault Refusal :=
  scanWith g (fun t =>
    if trailing t then .next (raise .dec .trailingData t) else .next { t with dec := t.dec.finish }) s

end Sys2Proof.Machine
end

