-- ==== Sys2Proof/Machine/Dispatch.lean ====
section
/-! DEFINITION. One arm per row of the opcode table. -/

namespace Sys2Proof.Machine

def exec (i : Instr) (s : State) : Host.Outcome State Fault Refusal :=
  match i with
  | .encode v => Sys2Proof.Machine.execEncode v s
  | .decode bs => Sys2Proof.Machine.execDecode bs s
  | .parse bs => Sys2Proof.Machine.execParse bs s
  | .cont g => Sys2Proof.Machine.execCont g s
  | .term g => Sys2Proof.Machine.execTerm g s

end Sys2Proof.Machine
end

