-- ==== Sys2Proof/Machine/Turns.lean ====
section
/-! DEFINITION. Whose turn it is, and what an agent does in its turn (10_state.md R21, R36). -/

namespace Sys2Proof.Machine

/-- The turn of the next step: the head of the list of turns; with none listed, a running unit (ENC first),
else the HOST, so that a HOST that lists no turns is synchronous (30_encoding.md R85; log 5). -/
def nextTurn (s : State) : Turn :=
  match s.host.turns with
  | t :: _ => t
  | [] => if s.enc.busy then .enc else if s.dec.busy then .dec else .host

/-- The state with that turn used up. -/
def dropTurn (s : State) : State := { s with host := { s.host with turns := s.host.turns.tail } }

/-- The state with the command on the port taken from it. -/
def dropCmd (s : State) : State := { s with host := { s.host with cmds := s.host.cmds.tail } }

/-- The refusal of wires that carry no command (30_encoding.md R80, R83, R84; log 7, log 8). -/
def refusalOf : DecodeError → Refusal
  | .reservedOpcode => .reservedOpcode
  | .operandTooWide => .operandTooWide
  | .lengthTooWide => .lengthTooWide
  | .bufferTooShort => .bufferTooShort

/-- The HOST's turn: the command on the port is decoded; an `IDLE` unit accepts it, a busy unit holds it off,
and it stays on the port (70_reset_and_hazards.md R175). With no command presented nothing happens. -/
def hostTurn (s : State) : Host.Outcome State Fault Refusal :=
  match s.host.cmds with
  | [] => .next s
  | c :: _ =>
    match decodeCommand s.build c with
    | .error e => .refused (refusalOf e)
    | .ok i => if cmdReady s c.op then exec i (dropCmd s) else .next s

/-- DEC's turn, the DEC-scan step: it reads the byte at `dec.idx` and runs it; at the end of the input it reads
nothing and raises `TruncatedInput` (41_decode.md R112). -/
def decTurn (s : State) : Host.Outcome State Fault Refusal :=
  match s.dec.state with
  | .idle => .next s
  | .run =>
    if s.dec.idx = s.dec.inLen then .next (raise .dec .truncatedInput s)
    else
      match memReadIn s.dec s.dec.idx with
      | some b => exec (decodeByte b) s
      | none => .fault .readOutsideInput

/-- One turn of an agent. -/
def takeTurn (t : Turn) (s : State) : Host.Outcome State Fault Refusal :=
  match t with
  | .reset => .next (resetStep s)
  | .host => hostTurn s
  | .enc => encEmit s
  | .dec => decTurn s

/-- Turns one after another, stopping at the first fault or refusal. -/
def takeTurns : List Turn → State → Host.Outcome State Fault Refusal
  | [], s => .next s
  | t :: ts, s =>
    match takeTurn t s with
    | .next s' => takeTurns ts s'
    | .fault r => .fault r
    | .refused r => .refused r

/-- A command placed on the port of an `IDLE` unit, with the HOST to move (log 15). -/
def placeCommand (c : Command) (s : State) : State :=
  { s with
    enc := if opUnit c.op = some .enc then { s.enc with state := .idle } else s.enc
    dec := if opUnit c.op = some .dec then { s.dec with state := .idle } else s.dec
    host := { cmds := c :: s.host.cmds, turns := .host :: s.host.turns } }

/-- A byte placed where DEC reads next, with DEC to move: an `IDLE` DEC is given the one-byte input (log 15). -/
def placeByte (b : Byte) (s : State) : State :=
  { s with
    dec :=
      match s.dec.state with
      | .idle => s.dec.begin s.dec.mode [b]
      | .run => { s.dec with inBuf := s.dec.inBuf.write s.dec.idx b, inLen := max s.dec.inLen (s.dec.idx + 1) }
    host := { s.host with turns := .dec :: s.host.turns } }

end Sys2Proof.Machine
end

