-- ==== Sys2Proof/Machine/Step.lean ====
section
/-! DEFINITION. One step of the machine, and where its next instruction stands. -/

namespace Sys2Proof.Machine

/-- One atomic transition of one agent (10_state.md R21). -/
def step (s : State) : Host.Outcome State Fault Refusal := takeTurn (nextTurn s) (dropTurn s)

/-- The state whose next step runs the instruction of an opcode-table word: a command is placed on the command
port, a byte where DEC reads next (log 15). A word that stands for neither leaves the state as it is. -/
def State.withFetchWord (s : State) (nbits w : Nat) : State :=
  match tableWire nbits w with
  | some (.cmd c) => placeCommand c s
  | some (.byte b) => placeByte b s
  | none => s

end Sys2Proof.Machine
end

