-- ==== Sys2Proof/Machine/Codec.lean ====
section
/-! DEFINITION. The operations at function level, which govern where the two levels could be read differently
(40_encode.md, 41_decode.md; 90_conflicts.md C9): `enc` and ENCODE (R90), `scan` (R110), DECODE (R113), PARSE
(R130), and the HOST's loop over PARSE (R133). -/

namespace Sys2Proof.Machine

/-- `enc` with a bound on the number of CONT bytes. -/
def encFuel : Nat → Nat → List Byte
  | 0, v => [byteOf false (lowGroup v)]
  | n + 1, v =>
    if v < 128 then [byteOf false (lowGroup v)] else byteOf true (lowGroup v) :: encFuel n (dropGroup v)

/-- `enc(v)` (40_encode.md R90). The bound `v` is never met: each CONT byte makes the rest smaller (R93). -/
def enc (v : Nat) : List Byte := encFuel v v

/-- `ENCODE(v)` (40_encode.md R90). -/
def encodeFn (v : Int) : CmdResult :=
  if v < 0 then .error .invalidInput else .bytes (enc v.toNat)

/-- The loop of `scan` from index `i` on (41_decode.md R110). -/
def scanLoop (w : Width) (acc shift i : Nat) : List Byte → Except Err (Nat × Nat)
  | [] => .error .truncatedInput
  | b :: bs =>
    if overflowsWidth w (placeGroup (groupOf b) shift) then .error .valueOverflow
    else if contBit b then scanLoop w (addGroup acc (groupOf b) shift) (shift + 7) (i + 1) bs
    else .ok (addGroup acc (groupOf b) shift, i + 1)

/-- `scan(s)`: the value and the number of bytes consumed (41_decode.md R110). -/
def scan (w : Width) (s : List Byte) : Except Err (Nat × Nat) := scanLoop w 0 0 0 s

/-- `DECODE(s)` (41_decode.md R113). -/
def decodeFn (p : Params) (s : List Byte) : CmdResult :=
  match scan p.valueBits s with
  | .error e => .error e
  | .ok (v, c) => if p.decodeStrict = true ∧ c < s.length then .error .trailingData else .value v

/-- `PARSE(s)` (42_parse.md R130). -/
def parseFn (p : Params) (s : List Byte) : CmdResult :=
  match scan p.valueBits s with
  | .error e => .error e
  | .ok (v, c) => .pair v (s.drop c)

/-- The number of DEC-scan steps from the byte at shift `shift` on (41_decode.md R117). -/
def scanStepsFrom (w : Width) (shift : Nat) : List Byte → Nat
  | [] => 1
  | b :: bs =>
    if overflowsWidth w (placeGroup (groupOf b) shift) then 1
    else if contBit b then scanStepsFrom w (shift + 7) bs + 1
    else 1

/-- The number of DEC-scan steps of a command on `s` (41_decode.md R117). -/
def scanSteps (w : Width) (s : List Byte) : Nat := scanStepsFrom w 0 s

/-- The HOST's loop over PARSE, at most `n` commands: the values and the last remainder (42_parse.md R133). It
stops at an empty remainder or an error. -/
def parseStream (p : Params) : Nat → List Byte → List Nat × List Byte
  | 0, s => ([], s)
  | n + 1, s =>
    if s = [] then ([], [])
    else
      match parseFn p s with
      | .pair v r => (v :: (parseStream p n r).1, (parseStream p n r).2)
      | _ => ([], s)

end Sys2Proof.Machine
end

