-- ==== Sys2Proof/Machine/Observe.lean ====
section
/-! DEFINITION. What the HOST can observe (10_state.md R28, R29, R35, R36). A result that holds no value is `none`,
so that a read outside its validity cannot be written down (93_implementation_defined.md U3; log 4). -/

namespace Sys2Proof.Machine

/-- ENC's results are valid (10_state.md R29). -/
def Enc.ok (e : Enc) : Bool := e.done && e.err.isNone

/-- DEC's results are valid (10_state.md R29). -/
def Dec.ok (d : Dec) : Bool := d.done && d.err.isNone

/-- `enc.len` as a result (10_state.md R29). -/
def Enc.lenResult (e : Enc) : Option Nat := if e.ok then some e.len else none

/-- `OUT[0 .. enc.len - 1]` as a result (10_state.md R29). -/
def Enc.outResult (e : Enc) : Option (List Byte) := if e.ok then e.out.readSeq 0 e.len else none

/-- `dec.value` as a result (10_state.md R29). -/
def Dec.valueResult (d : Dec) : Option Nat := if d.ok then some d.value else none

/-- `dec.consumed` as a result (10_state.md R29). -/
def Dec.consumedResult (d : Dec) : Option Nat := if d.ok then some d.consumed else none

/-- The remainder of PARSE: the view of IN at offset `dec.consumed` and of length `dec.in_len - dec.consumed`
(20_memory.md R60, 42_parse.md R131). -/
def Dec.remainderResult (d : Dec) : Option (List Byte) :=
  if d.ok then d.inBuf.readSeq d.consumed (d.inLen - d.consumed) else none

/-- The outcome of the last accepted ENCODE, if it is available (10_state.md R28). -/
def encOutcome (s : State) : Option CmdResult :=
  if s.enc.done then
    match s.enc.err with
    | some e => some (.error e)
    | none => s.enc.outResult.map .bytes
  else none

/-- The outcome of the last accepted DECODE or PARSE, if it is available (10_state.md R28). -/
def decOutcome (s : State) : Option CmdResult :=
  if s.dec.done then
    match s.dec.err with
    | some e => some (.error e)
    | none =>
      match s.dec.mode with
      | .decode => s.dec.valueResult.map .value
      | .parse => s.dec.remainderResult.map (.pair s.dec.value)
  else none

/-- The output ports (10_state.md R35) as they stand in the step that is next. `cmdReady` is 0 with no command
presented (`cmd_op` is then no opcode of the HOST) and while reset is held (70_reset_and_hazards.md R170). -/
structure OutPorts where
  cmdReady    : Bool
  inRe        : Bool
  inIdx       : Nat
  outWe       : Bool
  outIdx      : Nat
  outByte     : Byte
  encBusy     : Bool
  encDone     : Bool
  encErr      : BitVec 3
  encLen      : Option Nat
  decBusy     : Bool
  decDone     : Bool
  decErr      : BitVec 3
  decValue    : Option Nat
  decConsumed : Option Nat
  deriving DecidableEq, Repr

/-- `in_re`: DEC reads IN in this step (10_state.md R35, 41_decode.md R112). -/
def readsIn (s : State) : Bool := nextTurn s == .dec && s.dec.busy && s.dec.idx != s.dec.inLen

/-- `out_we`: ENC writes OUT in this step (10_state.md R35, 40_encode.md R92). -/
def writesOut (s : State) : Bool := nextTurn s == .enc && s.enc.busy

/-- `cmd_ready` (10_state.md R35, 30_encoding.md R79; 70_reset_and_hazards.md R170). -/
def portReady (s : State) : Bool :=
  match s.host.cmds with
  | [] => false
  | c :: _ => nextTurn s != .reset && cmdReady s c.op

/-- The output ports of a state (10_state.md R35). -/
def ports (s : State) : OutPorts :=
  { cmdReady := portReady s
    inRe := readsIn s
    inIdx := s.dec.idx
    outWe := writesOut s
    outIdx := s.enc.len
    outByte := emitByte s.enc.rem
    encBusy := s.enc.busy
    encDone := s.enc.done
    encErr := errCode s.enc.err
    encLen := s.enc.lenResult
    decBusy := s.dec.busy
    decDone := s.dec.done
    decErr := errCode s.dec.err
    decValue := s.dec.valueResult
    decConsumed := s.dec.consumedResult }

end Sys2Proof.Machine
end

