-- ==== Sys2Proof/Safety.lean ====
section
/-! DEFINITION. The states a run can be in: the invariants the spec gives the two units (40_encode.md R94 to R96,
41_decode.md R121, 10_state.md R24 and R37, 60_exceptions.md R145), what a safe outcome is, and the terms in
which statements speak of errors and of the commands of one unit. -/

namespace Sys2Proof.Machine

/-- What the spec says of ENC's state in every reachable state. -/
structure Enc.Inv (p : Params) (e : Enc) : Prop where
  /-- OUT is a byte sequence of length `enc.len` (10_state.md R26). -/
  out_sequence : e.out.isSequence e.len = true
  /-- `enc.rem` is a `W`-bit number (10_state.md R37). -/
  rem_holds : p.valueBits.holds e.rem = true
  /-- `enc.len` never exceeds `L_MAX` (10_state.md R24). -/
  len_le : ∀ m, p.lMax = some m → e.len ≤ m
  /-- ENCODE can meet only `InvalidInput` (60_exceptions.md R145). -/
  err_kind : e.err = none ∨ e.err = some .invalidInput
  /-- A failed ENCODE leaves OUT empty (60_exceptions.md R152). -/
  fail_empty : e.err ≠ none → e.len = 0
  /-- While a command runs no outcome is available (10_state.md R28). -/
  run_status : e.state = .run → e.done = false ∧ e.err = none
  /-- 40_encode.md R94 (b). -/
  run_cont : e.state = .run → ∀ b ∈ e.out.bytes, contBit b = true
  /-- 40_encode.md R94 (d). -/
  run_rem : e.state = .run → 1 ≤ e.len → 1 ≤ e.rem
  /-- The operand, as 40_encode.md R94 (a) recovers it, is a `W`-bit number (30_encoding.md R83). -/
  run_operand : e.state = .run →
    p.valueBits.holds (groupsValue e.out.bytes + e.rem * 2 ^ (7 * e.len)) = true
  /-- A successful result is the encoding of a value of the domain (40_encode.md R90, R99). -/
  ok_result : e.ok = true → ∃ v, p.valueBits.holds v = true ∧ e.out.bytes = Machine.enc v

/-- What the spec says of DEC's state in every reachable state. -/
structure Dec.Inv (p : Params) (d : Dec) : Prop where
  /-- IN is a byte sequence of length `dec.in_len` (10_state.md R27). -/
  in_sequence : d.inBuf.isSequence d.inLen = true
  /-- The `N`-bit and `W`-bit elements hold numbers of their width (10_state.md R27, R37). -/
  inLen_holds : p.lenBits.holds d.inLen = true
  idx_holds : p.lenBits.holds d.idx = true
  acc_holds : p.valueBits.holds d.acc = true
  value_holds : p.valueBits.holds d.value = true
  consumed_holds : p.lenBits.holds d.consumed = true
  /-- DECODE and PARSE never meet `InvalidInput` (60_exceptions.md R145). -/
  err_kind : d.err ≠ some .invalidInput
  /-- `TrailingData` is raised by strict DECODE only (60_exceptions.md R148). -/
  err_trailing : d.err = some .trailingData → d.mode = .decode ∧ p.decodeStrict = true
  /-- `ValueOverflow` exists for finite `W` only (60_exceptions.md R149). -/
  err_overflow : d.err = some .valueOverflow → p.valueBits ≠ .inf
  /-- While a command runs no outcome is available (10_state.md R28). -/
  run_status : d.state = .run → d.done = false ∧ d.err = none
  /-- 41_decode.md R121 (d). -/
  run_idx : d.state = .run → d.idx ≤ d.inLen
  /-- 41_decode.md R121 (a). -/
  run_shift : d.state = .run → d.shift = 7 * d.idx
  /-- 41_decode.md R121 (b). -/
  run_acc : d.state = .run → d.acc = groupsValue (d.inBuf.bytes.take d.idx)
  /-- 41_decode.md R121 (c). -/
  run_cont : d.state = .run → ∀ b ∈ d.inBuf.bytes.take d.idx, contBit b = true
  /-- A successful result is the value of the varint that was consumed (41_decode.md R110, 42_parse.md R131). -/
  ok_result : d.ok = true →
    d.consumed ≤ d.inLen ∧ isVarint (d.inBuf.bytes.take d.consumed) = true ∧
      d.value = groupsValue (d.inBuf.bytes.take d.consumed) ∧
      (d.mode = .decode → p.decodeStrict = true → d.consumed = d.inLen)

/-- The invariant of the machine: the build is a block (00_scope.md R6, R8) and both units keep theirs. -/
structure State.Inv (s : State) : Prop where
  build : s.build.wellFormed = true
  enc : s.enc.Inv s.build
  dec : s.dec.Inv s.build

/-- Every byte of both spaces reads in `t` as in `s`. -/
def SameMemory (s t : State) : Prop :=
  ∀ a, Memory.read t.enc.out a = Memory.read s.enc.out a ∧ Memory.read t.dec.inBuf a = Memory.read s.dec.inBuf a

/-- What an error of DEC leaves (60_exceptions.md R151, 41_decode.md R112): the status, and every field but the
index, the accumulator and the shift, which are not defined (R154), and the model's own counter of free values. The
last two clauses, `value` and `consumed`, are the model's reading (log 4). -/
def DecErrorLeaves (e : Err) (s t : State) : Prop :=
  t.build = s.build ∧ t.enc = s.enc ∧ t.host = s.host ∧ SameMemory s t ∧
    t.dec.state = .idle ∧ t.dec.done = true ∧ t.dec.err = some e ∧
    t.dec.mode = s.dec.mode ∧ t.dec.inBuf = s.dec.inBuf ∧ t.dec.inLen = s.dec.inLen ∧
    t.dec.value = s.dec.value ∧ t.dec.consumed = s.dec.consumed

/-- The commands of a list that address the unit (30_encoding.md R79). -/
def commandsFor (u : Agent) (cs : List Command) : List Command :=
  cs.filter fun c => decide (opUnit c.op = some u)

/-- The state with a HOST that presents to the one unit only. -/
def State.presentingOnlyTo (u : Agent) (s : State) : State :=
  { s with host := { s.host with cmds := commandsFor u s.host.cmds } }

/-- Between `s` and `t` the unit accepted no command: the commands that have left the port, which are those accepted
(70_reset_and_hazards.md R175), are none of its own. -/
def NoneAcceptedFor (u : Agent) (s t : State) : Prop :=
  ∀ cs, s.host.cmds = cs ++ t.host.cmds → commandsFor u cs = []

/-- An outcome without a fault. A refusal is a HOST presenting what the block does not take (93 U1). -/
def NoFault : Host.Outcome State Fault Refusal → Prop
  | .next _ => True
  | .fault _ => False
  | .refused _ => True

end Sys2Proof.Machine
end

