-- ==== Sys2Proof/Laws/State.lean ====
section
/-! SUPPORT. One lemma per field for each named update of the state, true by rfl, so that no later proof unfolds
a record update. -/

namespace Sys2Proof.Machine

/-! ### Writing a byte of OUT -/

@[simp] theorem Enc.append_state (e : Enc) (b : Byte) : (e.append b).state = e.state := rfl
@[simp] theorem Enc.append_rem (e : Enc) (b : Byte) : (e.append b).rem = e.rem := rfl
@[simp] theorem Enc.append_len (e : Enc) (b : Byte) : (e.append b).len = e.len + 1 := rfl
@[simp] theorem Enc.append_done (e : Enc) (b : Byte) : (e.append b).done = e.done := rfl
@[simp] theorem Enc.append_err (e : Enc) (b : Byte) : (e.append b).err = e.err := rfl
@[simp] theorem Enc.append_out (e : Enc) (b : Byte) : (e.append b).out = e.out.write e.len b := rfl

/-! ### Error entry of ENC -/

@[simp] theorem Enc.fail_state (e : Enc) (x : Err) : (e.fail x).state = .idle := rfl
@[simp] theorem Enc.fail_rem (e : Enc) (x : Err) : (e.fail x).rem = e.rem := rfl
@[simp] theorem Enc.fail_len (e : Enc) (x : Err) : (e.fail x).len = 0 := rfl
@[simp] theorem Enc.fail_done (e : Enc) (x : Err) : (e.fail x).done = true := rfl
@[simp] theorem Enc.fail_err (e : Enc) (x : Err) : (e.fail x).err = some x := rfl
@[simp] theorem Enc.fail_out (e : Enc) (x : Err) : (e.fail x).out = [] := rfl

/-! ### Acceptance of ENCODE -/

@[simp] theorem Enc.begin_state (e : Enc) (v : Nat) : (e.begin v).state = .run := rfl
@[simp] theorem Enc.begin_rem (e : Enc) (v : Nat) : (e.begin v).rem = v := rfl
@[simp] theorem Enc.begin_len (e : Enc) (v : Nat) : (e.begin v).len = 0 := rfl
@[simp] theorem Enc.begin_done (e : Enc) (v : Nat) : (e.begin v).done = false := rfl
@[simp] theorem Enc.begin_err (e : Enc) (v : Nat) : (e.begin v).err = none := rfl
@[simp] theorem Enc.begin_out (e : Enc) (v : Nat) : (e.begin v).out = [] := rfl

/-! ### Error entry of DEC -/

@[simp] theorem Dec.fail_state (p : Params) (d : Dec) (x : Err) : (d.fail p x).state = .idle := rfl
@[simp] theorem Dec.fail_mode (p : Params) (d : Dec) (x : Err) : (d.fail p x).mode = d.mode := rfl
@[simp] theorem Dec.fail_inBuf (p : Params) (d : Dec) (x : Err) : (d.fail p x).inBuf = d.inBuf := rfl
@[simp] theorem Dec.fail_inLen (p : Params) (d : Dec) (x : Err) : (d.fail p x).inLen = d.inLen := rfl
@[simp] theorem Dec.fail_idx (p : Params) (d : Dec) (x : Err) : (d.fail p x).idx = clipTo p.lenBits (Config.freeIdx d.draws) := rfl
@[simp] theorem Dec.fail_acc (p : Params) (d : Dec) (x : Err) : (d.fail p x).acc = clipTo p.valueBits (Config.freeAcc d.draws) := rfl
@[simp] theorem Dec.fail_shift (p : Params) (d : Dec) (x : Err) : (d.fail p x).shift = Config.freeShift d.draws := rfl
@[simp] theorem Dec.fail_done (p : Params) (d : Dec) (x : Err) : (d.fail p x).done = true := rfl
@[simp] theorem Dec.fail_err (p : Params) (d : Dec) (x : Err) : (d.fail p x).err = some x := rfl
@[simp] theorem Dec.fail_value (p : Params) (d : Dec) (x : Err) : (d.fail p x).value = d.value := rfl
@[simp] theorem Dec.fail_consumed (p : Params) (d : Dec) (x : Err) : (d.fail p x).consumed = d.consumed := rfl
@[simp] theorem Dec.fail_draws (p : Params) (d : Dec) (x : Err) : (d.fail p x).draws = d.draws + 1 := rfl

/-! ### Acceptance of DECODE and PARSE -/

@[simp] theorem Dec.begin_state (d : Dec) (m : DecMode) (s : List Byte) : (d.begin m s).state = .run := rfl
@[simp] theorem Dec.begin_mode (d : Dec) (m : DecMode) (s : List Byte) : (d.begin m s).mode = m := rfl
@[simp] theorem Dec.begin_inBuf (d : Dec) (m : DecMode) (s : List Byte) : (d.begin m s).inBuf = .ofBytes s := rfl
@[simp] theorem Dec.begin_inLen (d : Dec) (m : DecMode) (s : List Byte) : (d.begin m s).inLen = s.length := rfl
@[simp] theorem Dec.begin_idx (d : Dec) (m : DecMode) (s : List Byte) : (d.begin m s).idx = 0 := rfl
@[simp] theorem Dec.begin_acc (d : Dec) (m : DecMode) (s : List Byte) : (d.begin m s).acc = 0 := rfl
@[simp] theorem Dec.begin_shift (d : Dec) (m : DecMode) (s : List Byte) : (d.begin m s).shift = 0 := rfl
@[simp] theorem Dec.begin_done (d : Dec) (m : DecMode) (s : List Byte) : (d.begin m s).done = false := rfl
@[simp] theorem Dec.begin_err (d : Dec) (m : DecMode) (s : List Byte) : (d.begin m s).err = none := rfl
@[simp] theorem Dec.begin_value (d : Dec) (m : DecMode) (s : List Byte) : (d.begin m s).value = d.value := rfl
@[simp] theorem Dec.begin_consumed (d : Dec) (m : DecMode) (s : List Byte) : (d.begin m s).consumed = d.consumed := rfl
@[simp] theorem Dec.begin_draws (d : Dec) (m : DecMode) (s : List Byte) : (d.begin m s).draws = d.draws := rfl

/-! ### Taking a group -/

@[simp] theorem Dec.take_state (d : Dec) (g : Group) : (d.take g).state = d.state := rfl
@[simp] theorem Dec.take_mode (d : Dec) (g : Group) : (d.take g).mode = d.mode := rfl
@[simp] theorem Dec.take_inBuf (d : Dec) (g : Group) : (d.take g).inBuf = d.inBuf := rfl
@[simp] theorem Dec.take_inLen (d : Dec) (g : Group) : (d.take g).inLen = d.inLen := rfl
@[simp] theorem Dec.take_idx (d : Dec) (g : Group) : (d.take g).idx = d.idx + 1 := rfl
@[simp] theorem Dec.take_acc (d : Dec) (g : Group) : (d.take g).acc = addGroup d.acc g d.shift := rfl
@[simp] theorem Dec.take_shift (d : Dec) (g : Group) : (d.take g).shift = d.shift := rfl
@[simp] theorem Dec.take_done (d : Dec) (g : Group) : (d.take g).done = d.done := rfl
@[simp] theorem Dec.take_err (d : Dec) (g : Group) : (d.take g).err = d.err := rfl
@[simp] theorem Dec.take_value (d : Dec) (g : Group) : (d.take g).value = d.value := rfl
@[simp] theorem Dec.take_consumed (d : Dec) (g : Group) : (d.take g).consumed = d.consumed := rfl
@[simp] theorem Dec.take_draws (d : Dec) (g : Group) : (d.take g).draws = d.draws := rfl

/-! ### Going on after a CONT byte -/

@[simp] theorem Dec.goOn_state (d : Dec) : (d.goOn).state = d.state := rfl
@[simp] theorem Dec.goOn_mode (d : Dec) : (d.goOn).mode = d.mode := rfl
@[simp] theorem Dec.goOn_inBuf (d : Dec) : (d.goOn).inBuf = d.inBuf := rfl
@[simp] theorem Dec.goOn_inLen (d : Dec) : (d.goOn).inLen = d.inLen := rfl
@[simp] theorem Dec.goOn_idx (d : Dec) : (d.goOn).idx = d.idx := rfl
@[simp] theorem Dec.goOn_acc (d : Dec) : (d.goOn).acc = d.acc := rfl
@[simp] theorem Dec.goOn_shift (d : Dec) : (d.goOn).shift = d.shift + 7 := rfl
@[simp] theorem Dec.goOn_done (d : Dec) : (d.goOn).done = d.done := rfl
@[simp] theorem Dec.goOn_err (d : Dec) : (d.goOn).err = d.err := rfl
@[simp] theorem Dec.goOn_value (d : Dec) : (d.goOn).value = d.value := rfl
@[simp] theorem Dec.goOn_consumed (d : Dec) : (d.goOn).consumed = d.consumed := rfl
@[simp] theorem Dec.goOn_draws (d : Dec) : (d.goOn).draws = d.draws := rfl

/-! ### Ending after a TERM byte -/

@[simp] theorem Dec.finish_state (d : Dec) : (d.finish).state = .idle := rfl
@[simp] theorem Dec.finish_mode (d : Dec) : (d.finish).mode = d.mode := rfl
@[simp] theorem Dec.finish_inBuf (d : Dec) : (d.finish).inBuf = d.inBuf := rfl
@[simp] theorem Dec.finish_inLen (d : Dec) : (d.finish).inLen = d.inLen := rfl
@[simp] theorem Dec.finish_idx (d : Dec) : (d.finish).idx = d.idx := rfl
@[simp] theorem Dec.finish_acc (d : Dec) : (d.finish).acc = d.acc := rfl
@[simp] theorem Dec.finish_shift (d : Dec) : (d.finish).shift = d.shift := rfl
@[simp] theorem Dec.finish_done (d : Dec) : (d.finish).done = true := rfl
@[simp] theorem Dec.finish_err (d : Dec) : (d.finish).err = none := rfl
@[simp] theorem Dec.finish_value (d : Dec) : (d.finish).value = d.acc := rfl
@[simp] theorem Dec.finish_consumed (d : Dec) : (d.finish).consumed = d.idx := rfl
@[simp] theorem Dec.finish_draws (d : Dec) : (d.finish).draws = d.draws := rfl

/-! ### Error entry, whole state: ENC -/

@[simp] theorem raise_enc_build (x : Err) (s : State) : (raise .enc x s).build = s.build := rfl
@[simp] theorem raise_enc_enc (x : Err) (s : State) : (raise .enc x s).enc = s.enc.fail x := rfl
@[simp] theorem raise_enc_dec (x : Err) (s : State) : (raise .enc x s).dec = s.dec := rfl
@[simp] theorem raise_enc_host (x : Err) (s : State) : (raise .enc x s).host = s.host := rfl

/-! ### Error entry, whole state: DEC -/

@[simp] theorem raise_dec_build (x : Err) (s : State) : (raise .dec x s).build = s.build := rfl
@[simp] theorem raise_dec_enc (x : Err) (s : State) : (raise .dec x s).enc = s.enc := rfl
@[simp] theorem raise_dec_dec (x : Err) (s : State) : (raise .dec x s).dec = s.dec.fail s.build x := rfl
@[simp] theorem raise_dec_host (x : Err) (s : State) : (raise .dec x s).host = s.host := rfl

/-! ### Reset -/

@[simp] theorem resetStep_build (s : State) : (resetStep s).build = s.build := rfl
@[simp] theorem resetStep_enc (s : State) : (resetStep s).enc = .reset := rfl
@[simp] theorem resetStep_dec (s : State) : (resetStep s).dec = { Dec.reset with draws := s.dec.draws } := rfl
@[simp] theorem resetStep_host (s : State) : (resetStep s).host = s.host := rfl

/-! ### Using up a turn -/

@[simp] theorem dropTurn_build (s : State) : (dropTurn s).build = s.build := rfl
@[simp] theorem dropTurn_enc (s : State) : (dropTurn s).enc = s.enc := rfl
@[simp] theorem dropTurn_dec (s : State) : (dropTurn s).dec = s.dec := rfl
@[simp] theorem dropTurn_host_cmds (s : State) : (dropTurn s).host.cmds = s.host.cmds := rfl
@[simp] theorem dropTurn_host_turns (s : State) : (dropTurn s).host.turns = s.host.turns.tail := rfl

/-! ### Taking a command from the port -/

@[simp] theorem dropCmd_build (s : State) : (dropCmd s).build = s.build := rfl
@[simp] theorem dropCmd_enc (s : State) : (dropCmd s).enc = s.enc := rfl
@[simp] theorem dropCmd_dec (s : State) : (dropCmd s).dec = s.dec := rfl
@[simp] theorem dropCmd_host_cmds (s : State) : (dropCmd s).host.cmds = s.host.cmds.tail := rfl
@[simp] theorem dropCmd_host_turns (s : State) : (dropCmd s).host.turns = s.host.turns := rfl

/-! ### The state after reset -/

@[simp] theorem State.resetOf_build (p : Params) : (State.resetOf p).build = p := rfl
@[simp] theorem State.resetOf_enc (p : Params) : (State.resetOf p).enc = .reset := rfl
@[simp] theorem State.resetOf_dec (p : Params) : (State.resetOf p).dec = .reset := rfl
@[simp] theorem State.resetOf_host_cmds (p : Params) : (State.resetOf p).host.cmds = [] := rfl
@[simp] theorem State.resetOf_host_turns (p : Params) : (State.resetOf p).host.turns = [] := rfl

end Sys2Proof.Machine
end

