-- ==== Sys2Proof/Laws/Memory.lean ====
section
/-! SUPPORT. The laws of the byte spaces: reading after writing, the canonical form, and byte sequences laid out
from index 0. -/

namespace Sys2Proof.Machine

theorem Memory.read_write_same (m : Memory) (a : Nat) (b : Byte) : (m.write a b).read a = some b := by
  induction m with
  | nil => simp [Memory.write, Memory.read]
  | cons c m ih =>
    obtain ⟨k, x⟩ := c
    simp only [Memory.write]
    split
    · simp [Memory.read]
    · split
      · simp [Memory.read]
      · rename_i h; simp [Memory.read, h, ih]

theorem Memory.read_write_ne (m : Memory) {a a' : Nat} (b : Byte) (h : a' ≠ a) :
    (m.write a b).read a' = m.read a' := by
  induction m with
  | nil => simp [Memory.write, Memory.read, h]
  | cons c m ih =>
    obtain ⟨k, x⟩ := c
    simp only [Memory.write]
    split
    · simp [Memory.read, h]
    · split
      · rename_i hk; subst hk; simp [Memory.read, h]
      · simp [Memory.read, ih]

/-- The head of a space that was written is the written index or the old head. -/
theorem Memory.wf_cons_write {k : Nat} {x : Byte} {m : Memory} {a : Nat} {b : Byte} (hk : k < a)
    (hm : Memory.wf ((k, x) :: m) = true) (hw : Memory.wf (m.write a b) = true) :
    Memory.wf ((k, x) :: m.write a b) = true := by
  cases m with
  | nil => simp [Memory.write, Memory.wf, hk]
  | cons c m =>
    obtain ⟨k', x'⟩ := c
    simp only [Memory.wf, Bool.and_eq_true, decide_eq_true_eq] at hm
    simp only [Memory.write] at hw ⊢
    split at hw <;> rename_i h1
    · rw [if_pos h1]; simp only [Memory.wf, Bool.and_eq_true, decide_eq_true_eq]
      exact ⟨hk, by simpa [Memory.wf] using hw⟩
    · split at hw <;> rename_i h2
      · rw [if_neg h1, if_pos h2]
        cases m <;> simp_all [Memory.wf]
      · rw [if_neg h1, if_neg h2]
        simp only [Memory.wf, Bool.and_eq_true, decide_eq_true_eq]
        cases hm' : Memory.write m a b <;> simp_all [Memory.wf]

/-- Writing keeps the canonical form. -/
theorem Memory.write_wf (m : Memory) (a : Nat) (b : Byte) (h : m.wf = true) : (m.write a b).wf = true := by
  induction m with
  | nil => rfl
  | cons c m ih =>
    obtain ⟨k, x⟩ := c
    have hm : Memory.wf m = true := by
      cases m with
      | nil => rfl
      | cons c' m' => simp only [Memory.wf, Bool.and_eq_true] at h; exact h.2
    by_cases h1 : a < k
    · simp [Memory.write, h1, Memory.wf, h]
    · by_cases h2 : a = k
      · subst h2
        cases m <;> simp_all [Memory.write, Memory.wf]
      · have hk : k < a := by omega
        have := Memory.wf_cons_write hk h (ih hm)
        simpa [Memory.write, h1, h2] using this

theorem Memory.ofBytesFrom_wf (i : Nat) (bs : List Byte) : (Memory.ofBytesFrom i bs).wf = true := by
  induction bs generalizing i with
  | nil => rfl
  | cons b bs ih =>
    cases bs with
    | nil => rfl
    | cons b' bs =>
      have := ih (i + 1)
      simp only [Memory.ofBytesFrom, Memory.wf, Bool.and_eq_true, decide_eq_true_eq] at this ⊢
      exact ⟨by omega, this⟩

/-- A byte sequence laid out as a space is in canonical form. -/
theorem Memory.ofBytes_wf (bs : List Byte) : (Memory.ofBytes bs).wf = true := Memory.ofBytesFrom_wf 0 bs

theorem Memory.read_ofBytesFrom (i a : Nat) (bs : List Byte) :
    (Memory.ofBytesFrom i bs).read a = if a < i then none else bs[a - i]? := by
  induction bs generalizing i with
  | nil => simp [Memory.ofBytesFrom, Memory.read]
  | cons b bs ih =>
    simp only [Memory.ofBytesFrom, Memory.read, ih]
    by_cases h : a = i
    · subst h; simp
    · by_cases h' : a < i
      · simp [h, h', Nat.lt_succ_of_lt h']
      · have h3 : ¬ a < i + 1 := by omega
        have : a - i = (a - (i + 1)) + 1 := by omega
        simp [h, h', h3, this]

/-- Index `a` of a sequence is its byte `a` (20_memory.md R51). -/
@[simp] theorem Memory.read_ofBytes (bs : List Byte) (a : Nat) : (Memory.ofBytes bs).read a = bs[a]? := by
  simp [Memory.ofBytes, Memory.read_ofBytesFrom]

theorem Memory.bytes_ofBytesFrom (i : Nat) (bs : List Byte) : (Memory.ofBytesFrom i bs).bytes = bs := by
  induction bs generalizing i with
  | nil => rfl
  | cons b bs ih => simpa [Memory.ofBytesFrom, Memory.bytes] using ih (i + 1)

@[simp] theorem Memory.bytes_ofBytes (bs : List Byte) : (Memory.ofBytes bs).bytes = bs :=
  Memory.bytes_ofBytesFrom 0 bs

@[simp] theorem Memory.bytes_nil : Memory.bytes [] = [] := rfl

@[simp] theorem Memory.length_bytes (m : Memory) : m.bytes.length = m.length := by simp [Memory.bytes]

theorem Memory.length_ofBytesFrom (i : Nat) (bs : List Byte) : (Memory.ofBytesFrom i bs).length = bs.length := by
  rw [← Memory.length_bytes, Memory.bytes_ofBytesFrom]

@[simp] theorem Memory.length_ofBytes (bs : List Byte) : (Memory.ofBytes bs).length = bs.length :=
  Memory.length_ofBytesFrom 0 bs

theorem Memory.write_ofBytesFrom (i : Nat) (bs : List Byte) (b : Byte) :
    (Memory.ofBytesFrom i bs).write (i + bs.length) b = Memory.ofBytesFrom i (bs ++ [b]) := by
  induction bs generalizing i with
  | nil => simp [Memory.ofBytesFrom, Memory.write]
  | cons c bs ih =>
    have h1 : ¬ i + (bs.length + 1) < i := by omega
    have h2 : ¬ i + (bs.length + 1) = i := by omega
    have h3 : i + (bs.length + 1) = (i + 1) + bs.length := by omega
    simp only [Memory.ofBytesFrom, Memory.write, List.length_cons, if_neg h1, if_neg h2, List.cons_append]
    rw [h3, ih]

/-- Writing at the length appends (20_memory.md R57). -/
theorem Memory.write_ofBytes (bs : List Byte) (b : Byte) :
    (Memory.ofBytes bs).write bs.length b = Memory.ofBytes (bs ++ [b]) := by
  simpa [Memory.ofBytes] using Memory.write_ofBytesFrom 0 bs b

/-- A space is a sequence of length `n` iff it is the layout of its own bytes and they are `n`. -/
theorem Memory.isSequence_iff (m : Memory) (n : Nat) :
    m.isSequence n = true ↔ m = Memory.ofBytes m.bytes ∧ m.bytes.length = n := by
  simp [Memory.isSequence]

@[simp] theorem Memory.isSequence_ofBytes (bs : List Byte) : (Memory.ofBytes bs).isSequence bs.length = true := by
  simp [Memory.isSequence]

/-- A sequence is in canonical form. -/
theorem Memory.isSequence_wf {m : Memory} {n : Nat} (h : m.isSequence n = true) : m.wf = true := by
  rw [((Memory.isSequence_iff m n).mp h).1]; exact Memory.ofBytes_wf _

theorem Memory.readSeq_ofBytes (bs : List Byte) (i n : Nat) (h : i + n ≤ bs.length) :
    (Memory.ofBytes bs).readSeq i n = some ((bs.drop i).take n) := by
  induction n generalizing i with
  | zero => simp [Memory.readSeq]
  | succ n ih =>
    have hi : i < bs.length := by omega
    rw [List.drop_eq_getElem_cons hi, List.take_succ_cons]
    simp [Memory.readSeq, ih (i + 1) (by omega), hi]

/-- Reading a whole sequence gives its bytes. -/
theorem Memory.readSeq_isSequence {m : Memory} {n : Nat} (h : m.isSequence n = true) :
    m.readSeq 0 n = some m.bytes := by
  obtain ⟨h1, h2⟩ := (Memory.isSequence_iff m n).mp h
  rw [h1, Memory.readSeq_ofBytes _ _ _ (by omega)]
  simp [← h2]

/-- Writing at the length keeps a sequence a sequence, one byte longer. -/
theorem Memory.isSequence_write {m : Memory} {n : Nat} (h : m.isSequence n = true) (b : Byte) :
    m.write n b = Memory.ofBytes (m.bytes ++ [b]) := by
  obtain ⟨h1, h2⟩ := (Memory.isSequence_iff m n).mp h
  conv_lhs => rw [h1, ← h2]
  exact Memory.write_ofBytes _ _

end Sys2Proof.Machine
end

