-- ==== Sys2Proof/Laws/Bytes.lean ====
section
/-! SUPPORT. The laws of bytes, groups and the arithmetic of the block (30_encoding.md R70, 00_scope.md R11 to
R14). -/

namespace Sys2Proof

@[simp] theorem contBit_byteOf (c : Bool) (g : Group) : contBit (byteOf c g) = c := by
  cases c <;> revert g <;> decide

@[simp] theorem groupOf_byteOf (c : Bool) (g : Group) : groupOf (byteOf c g) = g := by
  cases c <;> revert g <;> decide

@[simp] theorem byteOf_contBit_groupOf (b : Byte) : byteOf (contBit b) (groupOf b) = b := by
  revert b; decide

/-- `C` is the bit of weight 128 (30_encoding.md R71). -/
theorem contBit_iff (b : Byte) : contBit b = true ↔ 128 ≤ b.toNat := by
  revert b; decide

/-- `G = byte & 0x7F` (30_encoding.md R70). -/
theorem groupOf_toNat (b : Byte) : (groupOf b).toNat = b.toNat % 128 := by
  revert b; decide

namespace Machine

@[simp] theorem lowGroup_toNat (v : Nat) : (lowGroup v).toNat = v % 128 := by
  simp [lowGroup]

/-- `v >> 7 = floor(v / 128)` (00_scope.md R12). -/
theorem dropGroup_eq (v : Nat) : dropGroup v = v / 128 := by
  simp [dropGroup, Nat.shiftRight_eq_div_pow]

/-- `v = 128 * (v >> 7) + (v mod 128)` (00_scope.md R12). -/
theorem dropGroup_lowGroup (v : Nat) : 128 * dropGroup v + (lowGroup v).toNat = v := by
  rw [dropGroup_eq, lowGroup_toNat]; omega

/-- `g << shift` is the exact product (00_scope.md R13). -/
theorem placeGroup_eq (g : Group) (k : Nat) : placeGroup g k = g.toNat * 2 ^ k := by
  simp [placeGroup, Nat.shiftLeft_eq]

/-- The width check passes iff the number is one of the width (41_decode.md R118). -/
theorem overflowsWidth_eq (w : Width) (x : Nat) : overflowsWidth w x = !w.holds x := by
  cases w with
  | inf => rfl
  | finite n =>
    simp only [overflowsWidth, Width.holds, Nat.shiftRight_eq_div_pow]
    have := Nat.two_pow_pos n
    by_cases h : x < 2 ^ n
    · simp [h, Nat.div_eq_of_lt h]
    · have h' : 2 ^ n ≤ x := Nat.le_of_not_lt h
      have : x / 2 ^ n ≠ 0 := Nat.ne_of_gt (Nat.div_pos h' this)
      simp [h, this]

/-- The OR is a sum where the accumulator lies below the shift (00_scope.md R14). -/
theorem addGroup_eq {acc k : Nat} (g : Group) (h : acc < 2 ^ k) : addGroup acc g k = acc + g.toNat * 2 ^ k := by
  rw [addGroup, placeGroup, Nat.or_comm, ← Nat.shiftLeft_add_eq_or_of_lt h, Nat.shiftLeft_eq]; omega

/-- An OR of two numbers of a width is of the width (41_decode.md R118). -/
theorem holds_addGroup {w : Width} {acc k : Nat} {g : Group} (ha : w.holds acc = true)
    (hg : w.holds (placeGroup g k) = true) : w.holds (addGroup acc g k) = true := by
  cases w with
  | inf => rfl
  | finite n =>
    simp only [Width.holds, decide_eq_true_eq] at *
    exact Nat.or_lt_two_pow ha hg

theorem holds_mono {w : Width} {x y : Nat} (h : x ≤ y) (hy : w.holds y = true) : w.holds x = true := by
  cases w with
  | inf => rfl
  | finite n => simp only [Width.holds, decide_eq_true_eq] at *; omega

@[simp] theorem holds_zero (w : Width) : w.holds 0 = true := by
  cases w <;> simp [Width.holds]

@[simp] theorem holds_clipTo (w : Width) (x : Nat) : w.holds (clipTo w x) = true := by
  cases w with
  | inf => rfl
  | finite n => simp [Width.holds, clipTo, Nat.mod_lt _ (Nat.two_pow_pos n)]

@[simp] theorem contBit_emitByte (v : Nat) : contBit (emitByte v) = decide (128 ≤ v) := by
  unfold emitByte; split <;> simp <;> omega

@[simp] theorem groupOf_emitByte (v : Nat) : groupOf (emitByte v) = lowGroup v := by
  unfold emitByte; split <;> simp

end Machine

end Sys2Proof
end

