-- ==== Sys2Proof/Laws/Codec.lean ====
section
/-! SUPPORT. The laws of the function level: the recursion equations of `enc`, the arithmetic of the value of a
sequence of groups, and the loop of `scan` split at CONT bytes. -/

namespace Sys2Proof.Machine

/-! ### `enc` -/

/-- Any bound that is large enough gives the same bytes. -/
theorem encFuel_eq (n m v : Nat) (hn : v ≤ n) (hm : v ≤ m) : encFuel n v = encFuel m v := by
  induction n generalizing m v with
  | zero =>
    obtain rfl : v = 0 := by omega
    cases m <;> simp [encFuel]
  | succ n ih =>
    cases m with
    | zero =>
      obtain rfl : v = 0 := by omega
      simp [encFuel]
    | succ m =>
      simp only [encFuel]
      split
      · rfl
      · rw [ih m (dropGroup v) (by rw [dropGroup_eq]; omega) (by rw [dropGroup_eq]; omega)]

/-- The first branch of 40_encode.md R90. -/
theorem enc_of_lt {v : Nat} (h : v < 128) : enc v = [byteOf false (lowGroup v)] := by
  cases v with
  | zero => rfl
  | succ n => simp [enc, encFuel, h]

/-- The second branch of 40_encode.md R90. -/
theorem enc_of_ge {v : Nat} (h : 128 ≤ v) : enc v = byteOf true (lowGroup v) :: enc (dropGroup v) := by
  obtain ⟨n, rfl⟩ : ∃ n, v = n + 1 := ⟨v - 1, by omega⟩
  have hd : dropGroup (n + 1) ≤ n := by rw [dropGroup_eq]; omega
  have h' : ¬ n + 1 < 128 := by omega
  simp only [enc, encFuel, if_neg h']
  rw [encFuel_eq n _ _ hd (Nat.le_refl _)]

/-- Induction along `enc`: a value below 128, or one whose rest is already covered. -/
theorem enc_induction {P : Nat → Prop} (base : ∀ v, v < 128 → P v)
    (next : ∀ v, 128 ≤ v → P (dropGroup v) → P v) (v : Nat) : P v := by
  induction v using Nat.strongRecOn with
  | ind v ih =>
    by_cases h : v < 128
    · exact base v h
    · exact next v (by omega) (ih _ (by rw [dropGroup_eq]; omega))

/-! ### The value of a sequence of groups -/

theorem groupsValueFrom_eq (i : Nat) (bs : List Byte) :
    groupsValueFrom i bs = groupsValue bs * 2 ^ (7 * i) := by
  have gen : ∀ (bs : List Byte) (i j : Nat),
      groupsValueFrom (i + j) bs = groupsValueFrom i bs * 2 ^ (7 * j) := by
    intro bs
    induction bs with
    | nil => intros; simp [groupsValueFrom]
    | cons b bs ih =>
      intro i j
      have : i + j + 1 = (i + 1) + j := by omega
      simp only [groupsValueFrom, this, ih, Nat.mul_add, Nat.pow_add, Nat.add_mul, Nat.mul_assoc]
  simpa [groupsValue] using gen bs 0 i

@[simp] theorem groupsValue_nil : groupsValue [] = 0 := rfl

/-- The first group has weight 1, the others 128 times their own (20_memory.md R55). -/
theorem groupsValue_cons (b : Byte) (bs : List Byte) :
    groupsValue (b :: bs) = (groupOf b).toNat + 128 * groupsValue bs := by
  have : groupsValue (b :: bs) = (groupOf b).toNat * 2 ^ (7 * 0) + groupsValueFrom (0 + 1) bs := rfl
  rw [this, groupsValueFrom_eq]; simp; omega

/-- The groups of a second sequence stand above those of the first. -/
theorem groupsValue_append (bs cs : List Byte) :
    groupsValue (bs ++ cs) = groupsValue bs + groupsValue cs * 2 ^ (7 * bs.length) := by
  induction bs with
  | nil => simp
  | cons b bs ih =>
    have h : 7 * (bs.length + 1) = 7 * bs.length + 7 := by omega
    simp only [List.cons_append, groupsValue_cons, ih, List.length_cons, h, Nat.pow_add]
    ring

/-- `k` groups make a number of `7k` bits (41_decode.md R121 (b)). -/
theorem groupsValue_lt (bs : List Byte) : groupsValue bs < 2 ^ (7 * bs.length) := by
  induction bs with
  | nil => simp
  | cons b bs ih =>
    have h : 7 * (bs.length + 1) = 7 * bs.length + 7 := by omega
    have hg : (groupOf b).toNat < 128 := (groupOf b).isLt
    rw [groupsValue_cons, List.length_cons, h, Nat.pow_add]
    omega

/-- One more byte adds its group at the next position. -/
theorem groupsValue_snoc (bs : List Byte) (b : Byte) :
    groupsValue (bs ++ [b]) = groupsValue bs + (groupOf b).toNat * 2 ^ (7 * bs.length) := by
  rw [groupsValue_append, groupsValue_cons]; simp

/-! ### The loop of `scan` -/

/-- Adding the group of the next byte is what the accumulator's OR does (41_decode.md R121). -/
theorem addGroup_groupsValue (bs : List Byte) (b : Byte) :
    addGroup (groupsValue bs) (groupOf b) (7 * bs.length) = groupsValue (bs ++ [b]) := by
  rw [addGroup_eq _ (groupsValue_lt bs), groupsValue_snoc]

/-- Every byte of `bs` is a CONT byte and none of their groups fails the width check, at index `i` on. -/
def passesFrom (w : Width) (i : Nat) : List Byte → Bool
  | [] => true
  | b :: bs => contBit b && w.holds (placeGroup (groupOf b) (7 * i)) && passesFrom w (i + 1) bs

/-- The loop goes over CONT bytes that pass the width check (41_decode.md R110). -/
theorem scanLoop_passes (w : Width) (pre bs cs : List Byte) (h : passesFrom w pre.length bs = true) :
    scanLoop w (groupsValue pre) (7 * pre.length) pre.length (bs ++ cs) =
      scanLoop w (groupsValue (pre ++ bs)) (7 * (pre ++ bs).length) (pre ++ bs).length cs := by
  induction bs generalizing pre with
  | nil => simp
  | cons b bs ih =>
    simp only [passesFrom, Bool.and_eq_true] at h
    obtain ⟨⟨hc, hw⟩, hr⟩ := h
    have h7 : 7 * pre.length + 7 = 7 * (pre ++ [b]).length := by simp; omega
    have := ih (pre ++ [b]) (by simpa using hr)
    simp only [List.cons_append, scanLoop, overflowsWidth_eq, hw, hc, Bool.not_true, if_true,
      addGroup_groupsValue, h7]
    simpa using this

/-- What one byte does to the loop (41_decode.md R110). -/
theorem scanLoop_cons (w : Width) (pre : List Byte) (b : Byte) (bs : List Byte) :
    scanLoop w (groupsValue pre) (7 * pre.length) pre.length (b :: bs) =
      if w.holds (placeGroup (groupOf b) (7 * pre.length)) = false then .error .valueOverflow
      else if contBit b then
        scanLoop w (groupsValue (pre ++ [b])) (7 * (pre ++ [b]).length) (pre ++ [b]).length bs
      else .ok (groupsValue (pre ++ [b]), (pre ++ [b]).length) := by
  have h7 : 7 * pre.length + 7 = 7 * (pre ++ [b]).length := by simp; omega
  simp only [scanLoop, overflowsWidth_eq, addGroup_groupsValue, h7]
  cases w.holds (placeGroup (groupOf b) (7 * pre.length)) <;> simp

/-- A number whose every group lies in the width lies in the width itself. -/
theorem holds_groupsValue_snoc {w : Width} {bs : List Byte} {b : Byte} (h : w.holds (groupsValue bs) = true)
    (hb : w.holds (placeGroup (groupOf b) (7 * bs.length)) = true) :
    w.holds (groupsValue (bs ++ [b])) = true := by
  rw [← addGroup_groupsValue]; exact holds_addGroup h hb

end Sys2Proof.Machine
end

