-- ==== Sys2Proof/Laws/Steps.lean ====
section
/-! SUPPORT. For each shared operation, everything it can do when it answers a next state; and what each
instruction and each turn leaves alone. -/

namespace Sys2Proof.Machine

variable {s t : State}

/-! ### Acceptance -/

theorem encAccept_cases {v : Int} (h : encAccept v s = .next t) :
    (s.enc.state = .idle ∧ v < 0 ∧ t = raise .enc .invalidInput s) ∨
    (s.enc.state = .idle ∧ 0 ≤ v ∧ t = { s with enc := s.enc.begin v.toNat }) ∨
    (s.enc.state = .run ∧ t = s) := by
  unfold encAccept at h
  split at h
  · rename_i hs
    split at h
    · cases h; exact .inl ⟨hs, ‹_›, rfl⟩
    · cases h; exact .inr (.inl ⟨hs, by omega, rfl⟩)
  · cases h; exact .inr (.inr ⟨‹_›, rfl⟩)

theorem decAccept_cases {m : DecMode} {bs : List Byte} (h : decAccept m bs s = .next t) :
    (s.dec.state = .idle ∧ t = { s with dec := s.dec.begin m bs }) ∨ (s.dec.state = .run ∧ t = s) := by
  unfold decAccept at h
  split at h
  · cases h; exact .inl ⟨‹_›, rfl⟩
  · cases h; exact .inr ⟨‹_›, rfl⟩

/-! ### The ENC-emit step -/

theorem encEmit_cases (h : encEmit s = .next t) :
    (s.enc.state = .idle ∧ t = s) ∨
    (s.enc.state = .run ∧ outIndexExists s.build s.enc.len = true ∧ s.enc.rem < 128 ∧
      t = { s with enc :=
        { s.enc.append (emitByte s.enc.rem) with done := true, err := none, state := .idle } }) ∨
    (s.enc.state = .run ∧ outIndexExists s.build s.enc.len = true ∧ 128 ≤ s.enc.rem ∧
      t = { s with enc := { s.enc.append (emitByte s.enc.rem) with rem := dropGroup s.enc.rem } }) := by
  unfold encEmit at h
  split at h
  · cases h; exact .inl ⟨‹_›, rfl⟩
  · split at h
    · cases h
    · rename_i hs ho
      split at h
      · cases h; exact .inr (.inl ⟨hs, by simpa using ho, ‹_›, rfl⟩)
      · cases h; exact .inr (.inr ⟨hs, by simpa using ho, by omega, rfl⟩)

/-! ### The DEC-scan step -/

theorem scanWith_cases {g : Group} {k : State → Host.Outcome State Fault Refusal}
    (h : scanWith g k s = .next t) :
    (s.dec.state = .idle ∧ t = s) ∨
    (s.dec.state = .run ∧ s.dec.idx = s.dec.inLen ∧ t = raise .dec .truncatedInput s) ∨
    (s.dec.state = .run ∧ s.dec.idx < s.dec.inLen ∧
      s.build.valueBits.holds (placeGroup g s.dec.shift) = false ∧ t = raise .dec .valueOverflow s) ∨
    (s.dec.state = .run ∧ s.dec.idx < s.dec.inLen ∧
      s.build.valueBits.holds (placeGroup g s.dec.shift) = true ∧
      k { s with dec := s.dec.take g } = .next t) := by
  unfold scanWith at h
  split at h
  · cases h; exact .inl ⟨‹_›, rfl⟩
  · rename_i hs
    split at h
    · cases h; exact .inr (.inl ⟨hs, ‹_›, rfl⟩)
    · split at h
      · cases h
      · have hlt : s.dec.idx < s.dec.inLen := by omega
        rw [overflowsWidth_eq] at h
        split at h <;> rename_i hw
        · cases h; exact .inr (.inr (.inl ⟨hs, hlt, by simpa using hw, rfl⟩))
        · exact .inr (.inr (.inr ⟨hs, hlt, by simpa using hw, h⟩))

theorem execCont_cases {g : Group} (h : execCont g s = .next t) :
    (s.dec.state = .idle ∧ t = s) ∨
    (s.dec.state = .run ∧ s.dec.idx = s.dec.inLen ∧ t = raise .dec .truncatedInput s) ∨
    (s.dec.state = .run ∧ s.dec.idx < s.dec.inLen ∧
      s.build.valueBits.holds (placeGroup g s.dec.shift) = false ∧ t = raise .dec .valueOverflow s) ∨
    (s.dec.state = .run ∧ s.dec.idx < s.dec.inLen ∧
      s.build.valueBits.holds (placeGroup g s.dec.shift) = true ∧
      t = { s with dec := (s.dec.take g).goOn }) := by
  rcases scanWith_cases h with h | h | h | ⟨h1, h2, h3, h4⟩
  · exact .inl h
  · exact .inr (.inl h)
  · exact .inr (.inr (.inl h))
  · cases h4; exact .inr (.inr (.inr ⟨h1, h2, h3, rfl⟩))

theorem execTerm_cases {g : Group} (h : execTerm g s = .next t) :
    (s.dec.state = .idle ∧ t = s) ∨
    (s.dec.state = .run ∧ s.dec.idx = s.dec.inLen ∧ t = raise .dec .truncatedInput s) ∨
    (s.dec.state = .run ∧ s.dec.idx < s.dec.inLen ∧
      s.build.valueBits.holds (placeGroup g s.dec.shift) = false ∧ t = raise .dec .valueOverflow s) ∨
    (s.dec.state = .run ∧ s.dec.idx < s.dec.inLen ∧
      s.build.valueBits.holds (placeGroup g s.dec.shift) = true ∧
      trailing { s with dec := s.dec.take g } = true ∧
      t = raise .dec .trailingData { s with dec := s.dec.take g }) ∨
    (s.dec.state = .run ∧ s.dec.idx < s.dec.inLen ∧
      s.build.valueBits.holds (placeGroup g s.dec.shift) = true ∧
      trailing { s with dec := s.dec.take g } = false ∧
      t = { s with dec := (s.dec.take g).finish }) := by
  rcases scanWith_cases h with h | h | h | ⟨h1, h2, h3, h4⟩
  · exact .inl h
  · exact .inr (.inl h)
  · exact .inr (.inr (.inl h))
  · split at h4 <;> rename_i ht
    · cases h4; exact .inr (.inr (.inr (.inl ⟨h1, h2, h3, ht, rfl⟩)))
    · cases h4; exact .inr (.inr (.inr (.inr ⟨h1, h2, h3, by simpa using ht, rfl⟩)))

/-- The trailing-data test in terms of the state before the byte (41_decode.md R112). -/
theorem trailing_take (s : State) (g : Group) :
    trailing { s with dec := s.dec.take g } =
      (s.dec.mode == .decode && s.build.decodeStrict && decide (s.dec.idx + 1 < s.dec.inLen)) := rfl

/-! ### Turns -/

theorem decTurn_cases (h : decTurn s = .next t) :
    (s.dec.state = .idle ∧ t = s) ∨
    (s.dec.state = .run ∧ s.dec.idx = s.dec.inLen ∧ t = raise .dec .truncatedInput s) ∨
    (s.dec.state = .run ∧ s.dec.idx < s.dec.inLen ∧
      ∃ b, s.dec.inBuf.read s.dec.idx = some b ∧ exec (decodeByte b) s = .next t) := by
  unfold decTurn at h
  split at h
  · cases h; exact .inl ⟨‹_›, rfl⟩
  · rename_i hs
    split at h
    · cases h; exact .inr (.inl ⟨hs, ‹_›, rfl⟩)
    · split at h
      · rename_i b hb
        unfold memReadIn at hb
        split at hb
        · exact .inr (.inr ⟨hs, ‹_›, b, hb, h⟩)
        · cases hb
      · cases h

theorem hostTurn_cases (h : hostTurn s = .next t) :
    (s.host.cmds = [] ∧ t = s) ∨
    (∃ c cs i, s.host.cmds = c :: cs ∧ decodeCommand s.build c = .ok i ∧ cmdReady s c.op = false ∧ t = s) ∨
    (∃ c cs i, s.host.cmds = c :: cs ∧ decodeCommand s.build c = .ok i ∧ cmdReady s c.op = true ∧
      exec i (dropCmd s) = .next t) := by
  unfold hostTurn at h
  split at h
  · cases h; exact .inl ⟨‹_›, rfl⟩
  · rename_i c cs hc
    split at h
    · cases h
    · rename_i i hi
      split at h <;> rename_i hr
      · exact .inr (.inr ⟨c, cs, i, hc, hi, hr, h⟩)
      · cases h; exact .inr (.inl ⟨c, cs, i, hc, hi, by simpa using hr, rfl⟩)

/-! ### The commands that the decoder gives -/

/-- A decoded command is one of the three operations with an operand the ports can carry (30_encoding.md R79,
R83, R84). -/
theorem decodeCommand_cases {p : Params} {c : Command} {i : Instr} (h : decodeCommand p c = .ok i) :
    i.wellFormed p = true ∧
      ((∃ v, i = .encode v ∧ c.op = opEncode) ∨ (∃ bs, i = .decode bs ∧ c.op = opDecode) ∨
        (∃ bs, i = .parse bs ∧ c.op = opParse)) := by
  have hin : ∀ {w len buf bs}, decodeInput w len buf = .ok bs → w.holds bs.length = true := by
    intro w len buf bs h
    unfold decodeInput at h
    split at h
    · cases h
    · split at h
      · cases h
      · cases h
        rw [List.length_take_of_le (by omega)]; simpa using ‹¬ w.holds len = false›
  unfold decodeCommand at h
  split at h
  · rename_i ho
    cases hv : decodeOperand p.valueBits c.v with
    | error e => simp [hv, Except.map] at h
    | ok v =>
      simp only [hv, Except.map, Except.ok.injEq] at h
      subst h
      refine ⟨?_, .inl ⟨v, rfl, ho⟩⟩
      unfold decodeOperand at hv
      simp only [Instr.wellFormed]
      cases hw : p.valueBits with
      | inf => rfl
      | finite n =>
        simp only [hw] at hv
        split at hv
        · rename_i hr
          cases hv
          have hp : (0 : Int) < 2 ^ n := by positivity
          have h1 := Int.emod_nonneg c.v (Int.ne_of_gt hp)
          have h2 := Int.emod_lt_of_pos c.v hp
          have h3 : 0 ≤ c.v / 2 ^ n := Int.ediv_nonneg hr.1 hp.le
          have h4 : c.v / 2 ^ n < 2 := by
            rw [Int.ediv_lt_iff_lt_mul hp]; rw [pow_succ] at hr; linarith [hr.2]
          have h5 : c.v / 2 ^ n = 0 ∨ c.v / 2 ^ n = 1 := by omega
          simp only [Bool.and_eq_true, decide_eq_true_eq]
          rcases h5 with h5 | h5 <;> rw [h5] <;> constructor <;> linarith
        · cases hv
  · split at h
    · rename_i ho
      cases hv : decodeInput p.lenBits c.len c.buf with
      | error e => simp [hv, Except.map] at h
      | ok bs =>
        simp only [hv, Except.map, Except.ok.injEq] at h
        subst h
        exact ⟨hin hv, .inr (.inl ⟨bs, rfl, ho⟩)⟩
    · split at h
      · rename_i ho
        cases hv : decodeInput p.lenBits c.len c.buf with
        | error e => simp [hv, Except.map] at h
        | ok bs =>
          simp only [hv, Except.map, Except.ok.injEq] at h
          subst h
          exact ⟨hin hv, .inr (.inr ⟨bs, rfl, ho⟩)⟩
      · cases h

/-! ### Memory stays canonical -/

/-- Both spaces are in canonical form. -/
def State.memoryWf (s : State) : Bool := Memory.wf s.enc.out && Memory.wf s.dec.inBuf

theorem exec_memoryWf {i : Instr} (h : exec i s = .next t) (hm : s.memoryWf = true) : t.memoryWf = true := by
  simp only [State.memoryWf, Bool.and_eq_true] at hm ⊢
  cases i with
  | encode v =>
    rcases encAccept_cases h with ⟨-, -, rfl⟩ | ⟨-, -, rfl⟩ | ⟨-, rfl⟩
    · exact ⟨rfl, hm.2⟩
    · exact ⟨rfl, hm.2⟩
    · exact hm
  | decode bs =>
    rcases decAccept_cases h with ⟨-, rfl⟩ | ⟨-, rfl⟩
    · exact ⟨hm.1, Memory.ofBytes_wf bs⟩
    · exact hm
  | parse bs =>
    rcases decAccept_cases h with ⟨-, rfl⟩ | ⟨-, rfl⟩
    · exact ⟨hm.1, Memory.ofBytes_wf bs⟩
    · exact hm
  | cont g =>
    rcases execCont_cases h with ⟨-, rfl⟩ | ⟨-, -, rfl⟩ | ⟨-, -, -, rfl⟩ | ⟨-, -, -, rfl⟩ <;> exact hm
  | term g =>
    rcases execTerm_cases h with ⟨-, rfl⟩ | ⟨-, -, rfl⟩ | ⟨-, -, -, rfl⟩ | ⟨-, -, -, -, rfl⟩ | ⟨-, -, -, -, rfl⟩ <;>
      exact hm

theorem encEmit_memoryWf (h : encEmit s = .next t) (hm : s.memoryWf = true) : t.memoryWf = true := by
  simp only [State.memoryWf, Bool.and_eq_true] at hm ⊢
  rcases encEmit_cases h with ⟨-, rfl⟩ | ⟨-, -, -, rfl⟩ | ⟨-, -, -, rfl⟩
  · exact hm
  · exact ⟨Memory.write_wf _ _ _ hm.1, hm.2⟩
  · exact ⟨Memory.write_wf _ _ _ hm.1, hm.2⟩

/-- Every turn keeps both spaces in canonical form. -/
theorem takeTurn_memoryWf {u : Turn} (h : takeTurn u s = .next t) (hm : s.memoryWf = true) :
    t.memoryWf = true := by
  cases u with
  | reset => cases h; rfl
  | enc => exact encEmit_memoryWf h hm
  | dec =>
    rcases decTurn_cases h with ⟨-, rfl⟩ | ⟨-, -, rfl⟩ | ⟨-, -, b, -, hx⟩
    · exact hm
    · exact hm
    · exact exec_memoryWf hx hm
  | host =>
    rcases hostTurn_cases h with ⟨-, rfl⟩ | ⟨_, _, _, -, -, -, rfl⟩ | ⟨_, _, _, -, -, -, hx⟩
    · exact hm
    · exact hm
    · exact exec_memoryWf hx hm

/-- The spaces at reset are in canonical form. -/
theorem reset_memoryWf (p : Params) : (State.resetOf p).memoryWf = true := rfl

end Sys2Proof.Machine
end

