-- ==== Sys2Proof/Laws/PerInstr.lean ====
section
/-! SUPPORT. The per-instruction family: the wires that encode an instruction carry the fixed bits of its row of
spec/opcode_table.json (30_encoding.md R71, R79). -/

namespace Sys2Proof.Laws.CarriesItsRow

/-- The match value and the mask of a row of spec/opcode_table.json. -/
def row : Instr → Nat × Nat
  | .encode _ => (0x0, 0x3)
  | .decode _ => (0x1, 0x3)
  | .parse _ => (0x2, 0x3)
  | .cont _ => (0x80, 0x80)
  | .term _ => (0x00, 0x80)

/-- The number that the table's columns are about: the opcode of a command, or the byte. -/
def tableNumber : Wire → Nat
  | .cmd c => c.op.toNat
  | .byte b => b.toNat

/-- Under its mask, the encoding of the instruction is its row's match value, in every build. -/
def Statement (i : Instr) : Prop := ∀ p : Params, tableNumber (Sys2Proof.encode p i) &&& (row i).2 = (row i).1

theorem encode (v : Int) : Statement (.encode v) := fun _ => by
  show BitVec.toNat (0#2) &&& 0x3 = 0x0
  decide

theorem decode (s : List Byte) : Statement (.decode s) := fun _ => by
  show BitVec.toNat (1#2) &&& 0x3 = 0x1
  decide

theorem parse (s : List Byte) : Statement (.parse s) := fun _ => by
  show BitVec.toNat (2#2) &&& 0x3 = 0x2
  decide

theorem cont (g : Group) : Statement (.cont g) := fun _ => by
  show (byteOf true g).toNat &&& 0x80 = 0x80
  revert g; decide

theorem term (g : Group) : Statement (.term g) := fun _ => by
  show (byteOf false g).toNat &&& 0x80 = 0x00
  revert g; decide

end Sys2Proof.Laws.CarriesItsRow
end

