-- ==== Sys2Proof/Certificates/Slice0/Obligations.lean ====
section
/-! DEFINITION. The statements for the provers: what the numbered rules of spec/ say of the block. -/

open Sys2Proof Sys2Proof.Machine

/-! ### Encodings -/

/-- Every well-formed instruction, in every build, decodes from its own encoding (30_encoding.md R70, R71, R78,
R79, R83, R84). -/
def Obligations.DecodeOfEncodeIsTheInstruction : Prop :=
  ∀ (p : Params) (i : Instr), i.wellFormed p = true → decode p (encode p i) = .ok i

/-- 30_encoding.md R70, R71: each byte is `C * 128 + G`, of exactly one class, and encodes back to itself. -/
def Obligations.EveryByteIsContOrTerm : Prop :=
  ∀ (p : Params) (b : Byte),
    encode p (decodeByte b) = .byte b ∧
      ((128 ≤ b.toNat ∧ ∃ g, decodeByte b = .cont g ∧ b.toNat = 128 + g.toNat) ∨
        (b.toNat < 128 ∧ ∃ g, decodeByte b = .term g ∧ b.toNat = g.toNat))

/-- Words written out in 95_test_vectors.md (P1, P2, P4, T1) decode to the commands and bytes they stand for. -/
def Obligations.SpecWordsDecode : Prop :=
  decode .default (.cmd { op := 0b00, v := 0x12C, len := 0, buf := [] }) = .ok (.encode 300) ∧
  decode .default (.cmd { op := 0b00, v := 0x1FFFFFFFFFFFFFFFF, len := 0, buf := [] }) = .ok (.encode (-1)) ∧
  decode .default (.cmd { op := 0b01, v := 0, len := 2, buf := [0xAC, 0x02] }) = .ok (.decode [0xAC, 0x02]) ∧
  decode .default (.cmd { op := 0b10, v := 0, len := 4, buf := [0x00, 0xE5, 0x8E, 0x26] }) =
    .ok (.parse [0x00, 0xE5, 0x8E, 0x26]) ∧
  decode .default (.byte 0b10101100) = .ok (.cont 0b0101100) ∧
  decode .default (.byte 0b00000010) = .ok (.term 0b0000010)

/-- 30_encoding.md R78: a field that an operation does not use may hold anything. -/
def Obligations.UnusedCommandFieldsAreIgnored : Prop :=
  ∀ (p : Params) (c c' : Command), c.op = c'.op →
    (c.op = opEncode → c.v = c'.v → decodeCommand p c = decodeCommand p c') ∧
    (c.op = opDecode ∨ c.op = opParse → c.len = c'.len → c.buf = c'.buf →
      decodeCommand p c = decodeCommand p c')

/-- 30_encoding.md R80: opcode `11` is never ready; in the HOST's turn the model refuses it (93 U1). -/
def Obligations.ReservedOpcodeIsRefused : Prop :=
  ∀ (s : State) (c : Command) (cs : List Command),
    nextTurn s = .host → s.host.cmds = c :: cs → c.op = 0b11 →
      cmdReady s c.op = false ∧ step s = .refused .reservedOpcode

/-- A command that the ports cannot carry (30_encoding.md R83, R84; 70_reset_and_hazards.md R173) is refused: the
model's own treatment, log 8. -/
def Obligations.UnpresentableCommandsAreRefused : Prop :=
  ∀ (s : State) (c : Command) (cs : List Command), nextTurn s = .host → s.host.cmds = c :: cs →
    (∀ w, c.op = opEncode → s.build.valueBits = .finite w → (c.v < 0 ∨ (2 ^ (w + 1) : Int) ≤ c.v) →
      step s = .refused .operandTooWide) ∧
    (c.op = opDecode ∨ c.op = opParse → s.build.lenBits.holds c.len = false →
      step s = .refused .lengthTooWide) ∧
    (c.op = opDecode ∨ c.op = opParse → s.build.lenBits.holds c.len = true → c.buf.length < c.len →
      step s = .refused .bufferTooShort)

/-! ### Steps and the instructions they run -/

/-- In the HOST's turn an `IDLE` unit runs the command on the port, which leaves the port; a busy unit holds it off,
and it stays (10_state.md R36, 30_encoding.md R79, 70_reset_and_hazards.md R175). -/
def Obligations.StepRunsTheCommandOnThePort : Prop :=
  ∀ (s : State) (c : Command) (cs : List Command) (i : Instr),
    nextTurn s = .host → s.host.cmds = c :: cs → decodeCommand s.build c = .ok i →
      (cmdReady s c.op = true →
        step s = exec i { s with host := { cmds := cs, turns := s.host.turns.tail } }) ∧
      (cmdReady s c.op = false →
        step s = .next { s with host := { cmds := c :: cs, turns := s.host.turns.tail } })

/-- In DEC's turn the byte at `dec.idx` is decoded and run (41_decode.md R112, 20_memory.md R54). -/
def Obligations.StepRunsTheByteRead : Prop :=
  ∀ (s : State) (b : Byte),
    nextTurn s = .dec → s.dec.state = .run → s.dec.idx < s.dec.inLen →
      Memory.read s.dec.inBuf s.dec.idx = some b →
        step s = exec (decodeByte b) { s with host := { s.host with turns := s.host.turns.tail } }

/-- A step is the turn at the head of the list; with no turn listed a running unit moves, ENC first, and else the
HOST: the model's own order, log 5. -/
def Obligations.StepTakesTheNextTurn : Prop :=
  (∀ (s : State) (u : Turn) (us : List Turn), s.host.turns = u :: us →
    step s = takeTurn u { s with host := { s.host with turns := us } }) ∧
  (∀ s : State, s.host.turns = [] →
    step s = takeTurn (if s.enc.state = .run then .enc else if s.dec.state = .run then .dec else .host) s)

/-- The very next step runs the instruction of a placed opcode-table word: a command at the state where it has left
the port of its unit, which is then `IDLE`, a byte at the state where DEC is in `RUN` and reads that byte next. This is
the host's interface, log 15. -/
def Obligations.FetchWordRunsNext : Prop :=
  ∀ (s : State) (nbits w : Nat) (i : Instr), decodeTableWord nbits w = some i →
    (∀ c, tableWire nbits w = some (.cmd c) →
      ∃ t : State, t = dropCmd (dropTurn (placeCommand c s)) ∧ step (s.withFetchWord nbits w) = exec i t ∧
        t.build = s.build ∧ t.host = s.host ∧ cmdReady t c.op = true ∧
        (opUnit c.op ≠ some .enc → t.enc = s.enc) ∧ (opUnit c.op ≠ some .dec → t.dec = s.dec)) ∧
    (∀ b, tableWire nbits w = some (.byte b) →
      ∃ t : State, t = dropTurn (placeByte b s) ∧ step (s.withFetchWord nbits w) = exec i t ∧
        t.build = s.build ∧ t.host = s.host ∧ t.enc = s.enc ∧
        t.dec.state = .run ∧ t.dec.idx < t.dec.inLen ∧ Memory.read t.dec.inBuf t.dec.idx = some b ∧
        i = decodeByte b) ∧
    tableWire nbits w ≠ none

/-! ### ENC -/

/-- 40_encode.md R91: the ENC-accept step, and that it touches nothing else. That a negative operand leaves `enc.rem` as
it was is the model's reading, log 4: R91 does not write it there, and 93_implementation_defined.md U3 gives the working
registers no value after an error. -/
def Obligations.EncAcceptStep : Prop :=
  ∀ (s : State) (v : Int), s.enc.state = .idle →
    (v < 0 → exec (.encode v) s = .next { s with enc :=
      { s.enc with len := 0, out := [], done := true, err := some .invalidInput, state := .idle } }) ∧
    (0 ≤ v → exec (.encode v) s = .next { s with enc :=
      { rem := v.toNat, len := 0, out := [], done := false, err := none, state := .run } })

/-- 40_encode.md R92, whole: the ENC-emit step, below the capacity of OUT (20_memory.md R59). The byte goes to
index `enc.len`; every other byte, and all but ENC's named fields, stay. -/
def Obligations.EncEmitStep : Prop :=
  ∀ s : State, s.enc.state = .run → (∀ m, s.build.lMax = some m → s.enc.len < m) →
    ∃ t : State, takeTurn .enc s = .next t ∧
      t.build = s.build ∧ t.dec = s.dec ∧ t.host = s.host ∧
      t.enc.len = s.enc.len + 1 ∧
      (∀ a, a ≠ s.enc.len → Memory.read t.enc.out a = Memory.read s.enc.out a) ∧
      (s.enc.rem < 128 →
        (∃ b : Byte, Memory.read t.enc.out s.enc.len = some b ∧ b.toNat = s.enc.rem) ∧
        t.enc.rem = s.enc.rem ∧ t.enc.done = true ∧ t.enc.err = none ∧ t.enc.state = .idle) ∧
      (128 ≤ s.enc.rem →
        (∃ b : Byte, Memory.read t.enc.out s.enc.len = some b ∧ b.toNat = 128 + s.enc.rem % 128) ∧
        t.enc.rem = s.enc.rem / 128 ∧ t.enc.done = s.enc.done ∧ t.enc.err = s.enc.err ∧ t.enc.state = .run)

/-- 40_encode.md R99: the accept step and `len(enc(v))` emit steps, none for a negative operand, leave `ENCODE(v)` as the
outcome. -/
def Obligations.EncodeRunAgreesWithFunction : Prop :=
  ∀ (s : State) (v : Int), s.build.wellFormed = true → Instr.wellFormed s.build (.encode v) = true →
    s.enc.state = .idle →
    ∃ s₁ t : State, exec (.encode v) s = .next s₁ ∧
      takeTurns (List.replicate (if v < 0 then 0 else (Machine.enc v.toNat).length) .enc) s₁ = .next t ∧
      t.enc.state = .idle ∧ t.enc.done = true ∧ encOutcome t = some (encodeFn v) ∧
      (v < 0 → t.enc.err = some .invalidInput ∧ t.enc.len = 0) ∧
      (0 ≤ v → t.enc.err = none ∧ Memory.readSeq t.enc.out 0 t.enc.len = some (Machine.enc v.toNat))

/-- 40_encode.md R93: a non-negative operand takes exactly `len(enc(v))` emit steps; a negative one takes none. -/
def Obligations.EncodeTakesItsLengthInSteps : Prop :=
  ∀ (s s₁ t : State) (v : Int) (n : Nat), s.build.wellFormed = true →
    Instr.wellFormed s.build (.encode v) = true → s.enc.state = .idle → exec (.encode v) s = .next s₁ →
    takeTurns (List.replicate n .enc) s₁ = .next t →
      (v < 0 → s₁.enc.state = .idle) ∧
      (0 ≤ v → (t.enc.state = .run ↔ n < varintLength v.toNat))

/-- 40_encode.md R94, whole: the invariant of the ENC-emit loop, and what (a) gives at the step that ends the command,
under any interleaving of ENC, DEC and the HOST, whatever commands the HOST presents, until a new ENCODE is
accepted. -/
def Obligations.EncEmitLoopInvariant : Prop :=
  ∀ (s s₁ t : State) (v : Int) (us : List Turn), s.enc.state = .idle → 0 ≤ v →
    exec (.encode v) s = .next s₁ → (∀ u ∈ us, u ≠ .reset) → takeTurns us s₁ = .next t →
    NoneAcceptedFor .enc s₁ t →
      Memory.isSequence t.enc.out t.enc.len = true ∧
      (t.enc.state = .run →
        v.toNat = groupsValue (Memory.bytes t.enc.out) + t.enc.rem * 2 ^ (7 * t.enc.len) ∧
        (∀ b ∈ Memory.bytes t.enc.out, contBit b = true) ∧
        t.enc.rem = v.toNat >>> (7 * t.enc.len) ∧
        (1 ≤ t.enc.len → 1 ≤ t.enc.rem)) ∧
      (t.enc.state = .idle → v.toNat = groupsValue (Memory.bytes t.enc.out))

/-- 40_encode.md R95, whole. -/
def Obligations.ContinuationBitsOfEnc : Prop :=
  ∀ v : Nat, isVarint (Machine.enc v) = true ∧
    ∀ (i : Nat) (h : i < (Machine.enc v).length),
      contBit (Machine.enc v)[i] = decide (i + 1 < (Machine.enc v).length)

/-- 40_encode.md R96 and 30_encoding.md R74: the length, the last byte, the canonical form, and that no other varint
of the value is as short. -/
def Obligations.EncIsMinimal : Prop :=
  ∀ v : Nat,
    (Machine.enc v).length = max 1 ((bitLength v + 6) / 7) ∧
    (0 < v → (Machine.enc v).getLast? ≠ some 0) ∧
    Machine.enc v = canonicalVarint v ∧
    (∀ bs, isVarint bs = true → groupsValue bs = v →
      (Machine.enc v).length ≤ bs.length ∧ (bs.length = (Machine.enc v).length → bs = Machine.enc v)) ∧
    (v < 128 → (Machine.enc v).length = 1) ∧
    (∀ k, 2 ≤ k → 2 ^ (7 * (k - 1)) ≤ v → v < 2 ^ (7 * k) → (Machine.enc v).length = k)

/-- 40_encode.md R97, whole: the value is recovered from the bytes, so `enc` is injective. -/
def Obligations.EncIsInjective : Prop :=
  (∀ v : Nat, groupsValue (Machine.enc v) = v) ∧ (∀ v w : Nat, Machine.enc v = Machine.enc w → v = w)

/-- 00_scope.md R7: `L_MAX` is the greatest length of an output of ENCODE, reached by `2^W - 1`; there is none for
`W = inf`. -/
def Obligations.LMaxIsTheGreatestLength : Prop :=
  ∀ p : Params, p.wellFormed = true →
    (∀ w, p.valueBits = .finite w → ∃ m, p.lMax = some m ∧ m = (w + 6) / 7 ∧
      (∀ v : Nat, v < 2 ^ w → (Machine.enc v).length ≤ m) ∧ (Machine.enc (2 ^ w - 1)).length = m) ∧
    (p.valueBits = .inf → p.lMax = none ∧ ∀ m : Nat, ∃ v : Nat, m < (Machine.enc v).length)

/-! ### DEC -/

/-- 41_decode.md R111, whole: the DEC-accept step for DECODE and for PARSE; it reads no byte and raises no error, and
touches nothing else. -/
def Obligations.DecAcceptStep : Prop :=
  ∀ (s : State) (bs : List Byte), s.dec.state = .idle →
    exec (.decode bs) s = .next { s with dec :=
      { s.dec with mode := .decode, inBuf := Memory.ofBytes bs, inLen := bs.length, idx := 0, acc := 0,
                   shift := 0, done := false, err := none, state := .run } } ∧
    exec (.parse bs) s = .next { s with dec :=
      { s.dec with mode := .parse, inBuf := Memory.ofBytes bs, inLen := bs.length, idx := 0, acc := 0,
                   shift := 0, done := false, err := none, state := .run } } ∧
    (∀ a, Memory.read (Memory.ofBytes bs) a = bs[a]?)

/-- A CONT byte that passes the width check (41_decode.md R112): its group is added, index and shift move on, and
nothing else changes. -/
def Obligations.ContByteGoesOn : Prop :=
  ∀ (s : State) (g : Group), s.dec.state = .run → s.dec.idx < s.dec.inLen →
    s.build.valueBits.holds (g.toNat <<< s.dec.shift) = true →
    ∃ t : State, exec (.cont g) s = .next t ∧ SameMemory s t ∧
      t = { s with dec :=
        { s.dec with acc := s.dec.acc ||| (g.toNat <<< s.dec.shift), idx := s.dec.idx + 1,
                     shift := s.dec.shift + 7 } }

/-- A TERM byte that passes the width check and the trailing-data test (41_decode.md R112): the command ends with
`Ok`, value and consumed are written, and nothing else changes. -/
def Obligations.TermByteEndsWithOk : Prop :=
  ∀ (s : State) (g : Group), s.dec.state = .run → s.dec.idx < s.dec.inLen →
    s.build.valueBits.holds (g.toNat <<< s.dec.shift) = true →
    ¬ (s.dec.mode = .decode ∧ s.build.decodeStrict = true ∧ s.dec.idx + 1 < s.dec.inLen) →
    ∃ t : State, exec (.term g) s = .next t ∧ SameMemory s t ∧
      t = { s with dec :=
        { s.dec with acc := s.dec.acc ||| (g.toNat <<< s.dec.shift), idx := s.dec.idx + 1,
                     value := s.dec.acc ||| (g.toNat <<< s.dec.shift), consumed := s.dec.idx + 1,
                     done := true, err := none, state := .idle } }

/-- The exhaustion test (41_decode.md R112, 60_exceptions.md R147): at the end of the input DEC's turn raises
`TruncatedInput`; it changes nothing but what an error changes. That `dec.value` and `dec.consumed` are unchanged is the
model's reading, log 4 (90_conflicts.md C9, 95_test_vectors.md T6): 10_state.md R29 gives them no value after an
error. -/
def Obligations.ExhaustedInputRaisesTruncatedInput : Prop :=
  ∀ s : State, s.dec.state = .run → s.dec.idx = s.dec.inLen →
    ∃ t : State, takeTurn .dec s = .next t ∧ DecErrorLeaves .truncatedInput s t

/-- The width check (41_decode.md R118, 60_exceptions.md R149): a group that fails it ends the command with
`ValueOverflow`, whether its byte is CONT or TERM. That `dec.value` and `dec.consumed` are unchanged is the model's
reading, log 4 (90_conflicts.md C9, 95_test_vectors.md T6). -/
def Obligations.WidthCheckRaisesValueOverflow : Prop :=
  ∀ (s : State) (g : Group), s.dec.state = .run → s.dec.idx < s.dec.inLen →
    s.build.valueBits.holds (g.toNat <<< s.dec.shift) = false →
    (∃ t : State, exec (.cont g) s = .next t ∧ DecErrorLeaves .valueOverflow s t) ∧
    (∃ t : State, exec (.term g) s = .next t ∧ DecErrorLeaves .valueOverflow s t)

/-- The trailing-data test (41_decode.md R115, 60_exceptions.md R148): a TERM byte of strict DECODE with a byte after
it ends the command with `TrailingData`. That the result registers are not written is the model's reading, log 4
(90_conflicts.md C9, 95_test_vectors.md T6). -/
def Obligations.StrictDecodeRaisesTrailingData : Prop :=
  ∀ (s : State) (g : Group), s.dec.state = .run →
    s.build.valueBits.holds (g.toNat <<< s.dec.shift) = true →
    s.dec.mode = .decode → s.build.decodeStrict = true → s.dec.idx + 1 < s.dec.inLen →
    ∃ t : State, exec (.term g) s = .next t ∧ DecErrorLeaves .trailingData s t

/-- 41_decode.md R112: the DEC-scan step from the state at its start. On an error exit the index, the accumulator and the
shift are not defined; that `dec.value` and `dec.consumed` are unchanged there is the model's reading, log 4
(90_conflicts.md C9, 95_test_vectors.md T6). -/
def Obligations.DecScanStep : Prop :=
  ∀ s : State, s.dec.state = .run →
    (s.dec.idx = s.dec.inLen → ∃ t : State, takeTurn .dec s = .next t ∧ DecErrorLeaves .truncatedInput s t) ∧
    (∀ b : Byte, s.dec.idx < s.dec.inLen → Memory.read s.dec.inBuf s.dec.idx = some b →
      ∃ t : State, takeTurn .dec s = .next t ∧
        (if s.build.valueBits.holds ((b.toNat % 128) <<< s.dec.shift) = false then
          DecErrorLeaves .valueOverflow s t
        else if 128 ≤ b.toNat then
          t = { s with dec :=
            { s.dec with acc := s.dec.acc ||| ((b.toNat % 128) <<< s.dec.shift), idx := s.dec.idx + 1,
                         shift := s.dec.shift + 7 } }
        else if s.dec.mode = .decode ∧ s.build.decodeStrict = true ∧ s.dec.idx + 1 < s.dec.inLen then
          DecErrorLeaves .trailingData s t
        else
          t = { s with dec :=
            { s.dec with acc := s.dec.acc ||| ((b.toNat % 128) <<< s.dec.shift), idx := s.dec.idx + 1,
                         value := s.dec.acc ||| ((b.toNat % 128) <<< s.dec.shift),
                         consumed := s.dec.idx + 1, done := true, err := none, state := .idle } }))

/-- 70_reset_and_hazards.md R175: a command to a unit in `RUN` is held off, with no effect and no error. -/
def Obligations.BusyUnitsHoldCommandsOff : Prop :=
  ∀ s : State,
    (s.enc.state = .run → ∀ v, exec (.encode v) s = .next s) ∧
    (s.dec.state = .run → ∀ bs, exec (.decode bs) s = .next s ∧ exec (.parse bs) s = .next s)

/-- 10_state.md R21, 60_exceptions.md R164: an `IDLE` unit has no step of its own, and takes no byte. -/
def Obligations.IdleUnitsTakeNoStep : Prop :=
  ∀ s : State,
    (s.enc.state = .idle → takeTurn .enc s = .next s) ∧
    (s.dec.state = .idle → takeTurn .dec s = .next s ∧
      ∀ g, exec (.cont g) s = .next s ∧ exec (.term g) s = .next s)

/-- 41_decode.md R119: the accept step and the scan steps leave `DECODE(s)` or `PARSE(s)` as the outcome. -/
def Obligations.ScanRunAgreesWithFunction : Prop :=
  ∀ (s : State) (bs : List Byte), s.dec.state = .idle →
    (∃ s₁ t : State, exec (.decode bs) s = .next s₁ ∧
      takeTurns (List.replicate (scanSteps s.build.valueBits bs) .dec) s₁ = .next t ∧
      t.dec.state = .idle ∧ t.dec.done = true ∧ decOutcome t = some (decodeFn s.build bs)) ∧
    (∃ s₁ t : State, exec (.parse bs) s = .next s₁ ∧
      takeTurns (List.replicate (scanSteps s.build.valueBits bs) .dec) s₁ = .next t ∧
      t.dec.state = .idle ∧ t.dec.done = true ∧ decOutcome t = some (parseFn s.build bs))

/-- 41_decode.md R117: the exact number of DEC-scan steps in each case, at most `in_len + 1`. -/
def Obligations.ScanStepCountsAreExact : Prop :=
  (∀ (s s₁ t : State) (i : Instr) (bs : List Byte) (n : Nat), s.dec.state = .idle →
    i = .decode bs ∨ i = .parse bs → exec i s = .next s₁ →
    takeTurns (List.replicate n .dec) s₁ = .next t →
      (t.dec.state = .run ↔ n < scanSteps s.build.valueBits bs)) ∧
  (∀ (w : Width) (bs : List Byte),
    scanSteps w bs ≤ bs.length + 1 ∧
    (∀ v c, scan w bs = .ok (v, c) → scanSteps w bs = c) ∧
    (scan w bs = .error .truncatedInput → scanSteps w bs = bs.length + 1) ∧
    (∀ (pre : List Byte) (b : Byte) (post : List Byte), bs = pre ++ b :: post →
      (∀ x ∈ pre, contBit x = true) → w.holds (groupsValue pre) = true →
      w.holds (groupsValue (pre ++ [b])) = false → scanSteps w bs = pre.length + 1))

/-- 41_decode.md R121, whole: the invariant of the DEC-scan loop, under any interleaving of DEC, ENC and the HOST,
whatever commands the HOST presents, until a new DEC command is accepted. -/
def Obligations.DecScanLoopInvariant : Prop :=
  ∀ (s s₁ t : State) (i : Instr) (bs : List Byte) (us : List Turn), s.dec.state = .idle →
    i = .decode bs ∨ i = .parse bs → exec i s = .next s₁ →
    (∀ u ∈ us, u ≠ .reset) → takeTurns us s₁ = .next t → NoneAcceptedFor .dec s₁ t → t.dec.state = .run →
      t.dec.shift = 7 * t.dec.idx ∧
      t.dec.acc = groupsValue (bs.take t.dec.idx) ∧ t.dec.acc < 2 ^ t.dec.shift ∧
      (∀ g : Group, addGroup t.dec.acc g t.dec.shift = t.dec.acc + g.toNat * 2 ^ t.dec.shift) ∧
      (∀ b ∈ bs.take t.dec.idx, contBit b = true) ∧
      t.dec.idx ≤ t.dec.inLen ∧ t.dec.inBuf = Memory.ofBytes bs ∧ t.dec.inLen = bs.length ∧
      (∀ w, s.build.valueBits = .finite w → t.dec.acc < 2 ^ w)

/-- 41_decode.md R110, 30_encoding.md R72, R73: `scan` succeeds exactly on a varint of the width at the start of the
sequence, with the value of its groups. -/
def Obligations.ScanGivesTheValueOfTheFirstVarint : Prop :=
  ∀ (w : Width) (s : List Byte) (v c : Nat),
    scan w s = .ok (v, c) ↔
      c ≤ s.length ∧ isVarint (s.take c) = true ∧ v = groupsValue (s.take c) ∧ w.holds v = true

/-- 60_exceptions.md R147: `TruncatedInput` exactly where every byte is a CONT byte, the empty input among them, and
no group overflows the width before. -/
def Obligations.TruncatedInputIffNoTermByte : Prop :=
  ∀ (w : Width) (s : List Byte),
    scan w s = .error .truncatedInput ↔ (∀ b ∈ s, contBit b = true) ∧ w.holds (groupsValue s) = true

/-- 60_exceptions.md R149, R153, 41_decode.md R118: `ValueOverflow` exactly where a group at or before the first TERM
byte leaves the width; never for `W = inf`. -/
def Obligations.ValueOverflowIffAGroupLeavesTheWidth : Prop :=
  (∀ (w : Width) (s : List Byte),
    scan w s = .error .valueOverflow ↔
      ∃ (pre : List Byte) (b : Byte) (post : List Byte), s = pre ++ b :: post ∧
        (∀ x ∈ pre, contBit x = true) ∧ w.holds ((groupOf b).toNat <<< (7 * pre.length)) = false) ∧
  (∀ s : List Byte, scan .inf s ≠ .error .valueOverflow)

/-- 41_decode.md R118: the width check of the scan step in the rule's second form, and that a group which passes it
leaves the accumulator in the width, where it is added without carry (R121 (b)). -/
def Obligations.WidthCheckForms : Prop :=
  ∀ (n acc k : Nat) (g : Group),
    (overflowsWidth (.finite n) (placeGroup g k) = true ↔
      ((n ≤ k ∧ g ≠ 0) ∨ (k < n ∧ n - k < 7 ∧ g.toNat >>> (n - k) ≠ 0))) ∧
    (acc < 2 ^ n → overflowsWidth (.finite n) (placeGroup g k) = false → addGroup acc g k < 2 ^ n) ∧
    (acc < 2 ^ k → addGroup acc g k = acc + g.toNat * 2 ^ k) ∧
    overflowsWidth .inf (placeGroup g k) = false

/-- 60_exceptions.md R145: which operation can raise which error. -/
def Obligations.ErrorsAreThoseOfTheTable : Prop :=
  (∀ (v : Int) (e : Err), encodeFn v = .error e ↔ v < 0 ∧ e = .invalidInput) ∧
  (∀ (p : Params) (s : List Byte),
    decodeFn p s ≠ .error .invalidInput ∧ parseFn p s ≠ .error .invalidInput ∧
    parseFn p s ≠ .error .trailingData ∧
    (decodeFn p s = .error .trailingData ↔
      p.decodeStrict = true ∧ ∃ v c, scan p.valueBits s = .ok (v, c) ∧ c < s.length) ∧
    (decodeFn p s = .error .truncatedInput ↔ scan p.valueBits s = .error .truncatedInput) ∧
    (parseFn p s = .error .truncatedInput ↔ scan p.valueBits s = .error .truncatedInput) ∧
    (decodeFn p s = .error .valueOverflow ↔ scan p.valueBits s = .error .valueOverflow) ∧
    (parseFn p s = .error .valueOverflow ↔ scan p.valueBits s = .error .valueOverflow))

/-- 41_decode.md R120, whole: DECODE inverts ENCODE on the domain of the build, and the scan takes all of `enc(v)`. -/
def Obligations.DecodeInvertsEncode : Prop :=
  ∀ (p : Params) (v : Nat), p.valueBits.holds v = true →
    scan p.valueBits (Machine.enc v) = .ok (v, (Machine.enc v).length) ∧
    decodeFn p (Machine.enc v) = .value v

/-- 42_parse.md R136, whole: PARSE inverts ENCODE on a prefix. -/
def Obligations.ParseInvertsEncodeOnAPrefix : Prop :=
  ∀ (p : Params) (v : Nat) (t : List Byte), p.valueBits.holds v = true →
    parseFn p (Machine.enc v ++ t) = .pair v t

/-- 42_parse.md R135, whole: the relation of DECODE and PARSE for both contracts. -/
def Obligations.DecodeIsParseWithoutRemainder : Prop :=
  ∀ (p : Params) (s : List Byte),
    (p.decodeStrict = true →
      (∀ v, decodeFn p s = .value v ↔ parseFn p s = .pair v []) ∧
      (decodeFn p s = .error .trailingData ↔ ∃ v r, parseFn p s = .pair v r ∧ r ≠ []) ∧
      (∀ e, e = .truncatedInput ∨ e = .valueOverflow → (decodeFn p s = .error e ↔ parseFn p s = .error e))) ∧
    (p.decodeStrict = false → ∀ v, decodeFn p s = .value v ↔ ∃ r, parseFn p s = .pair v r)

/-- 42_parse.md R131: the remainder is every byte strictly after the first varint. -/
def Obligations.ParseRemainderFollowsTheVarint : Prop :=
  ∀ (p : Params) (s r : List Byte) (v : Nat), parseFn p s = .pair v r →
    ∃ c, 1 ≤ c ∧ c ≤ s.length ∧ r = s.drop c ∧ s = s.take c ++ r ∧ isVarint (s.take c) = true ∧
      v = groupsValue (s.take c) ∧ (r = [] ↔ c = s.length)

/-- 41_decode.md R114: strict DECODE is `Ok` exactly on one varint whose value fits, and an error on all else. -/
def Obligations.StrictDecodeAcceptsExactlyVarints : Prop :=
  ∀ (p : Params) (s : List Byte), p.decodeStrict = true →
    (∀ v, decodeFn p s = .value v ↔ isVarint s = true ∧ v = groupsValue s ∧ p.valueBits.holds v = true) ∧
    (¬ (isVarint s = true ∧ p.valueBits.holds (groupsValue s) = true) → ∃ e, decodeFn p s = .error e)

/-- 30_encoding.md R75, 41_decode.md R122: overlong varints are accepted with the value of their groups, and are what
`enc` never gives back. -/
def Obligations.OverlongVarintsAreAccepted : Prop :=
  ∀ (p : Params) (s : List Byte), isVarint s = true → p.valueBits.holds (groupsValue s) = true →
    decodeFn p s = .value (groupsValue s) ∧
    (Machine.enc (groupsValue s) = s ↔ ¬ (2 ≤ s.length ∧ s.getLast? = some 0))

/-- 42_parse.md R133: successive PARSE commands give back the values of a stream; a further `PARSE []` is
`TruncatedInput`. -/
def Obligations.StreamsParseBack : Prop :=
  ∀ (p : Params) (vs : List Nat) (rest : List Byte), (∀ v ∈ vs, p.valueBits.holds v = true) →
    parseStream p vs.length (vs.flatMap Machine.enc ++ rest) = (vs, rest) ∧
    parseFn p [] = .error .truncatedInput

/-- 41_decode.md R118: zero groups at any position never overflow, in any build. -/
def Obligations.ZeroGroupsNeverOverflow : Prop :=
  ∀ (p : Params) (n : Nat), decodeFn p (List.replicate n 0x80 ++ [0x00]) = .value 0

/-! ### The whole machine -/

/-- 10_state.md R22, 00_scope.md R10, 20_memory.md R52, R54: no unit's step touches the other unit, the HOST or the
build parameters, and DEC never writes IN. -/
def Obligations.UnitsShareNoState : Prop :=
  ∀ s t : State,
    (takeTurn .enc s = .next t → t.dec = s.dec ∧ t.host = s.host ∧ t.build = s.build) ∧
    (takeTurn .dec s = .next t → t.enc = s.enc ∧ t.host = s.host ∧ t.build = s.build ∧
      t.dec.inBuf = s.dec.inBuf ∧ t.dec.inLen = s.dec.inLen ∧ t.dec.mode = s.dec.mode) ∧
    (∀ v, exec (.encode v) s = .next t → t.dec = s.dec ∧ t.host = s.host ∧ t.build = s.build) ∧
    (∀ i : Instr, (∀ v, i ≠ .encode v) → exec i s = .next t →
      t.enc = s.enc ∧ t.host = s.host ∧ t.build = s.build)

/-- 70_reset_and_hazards.md R184: whatever the interleaving, each unit does what it does alone. With turns of the
units only, a unit ends as after its own turns. With HOST turns as well, whatever commands they give both units, it
ends as it does for the HOST that presents this unit's commands only, at some of the same HOST turns. -/
def Obligations.InterleavingDoesNotMatter : Prop :=
  ∀ (s : State) (us : List Turn), s.Inv →
    ((∀ u ∈ us, u = .enc ∨ u = .dec) →
      ∃ t te td : State, takeTurns us s = .next t ∧
        takeTurns (us.filter (· == .enc)) s = .next te ∧ takeTurns (us.filter (· == .dec)) s = .next td ∧
        t.enc = te.enc ∧ t.dec = td.dec) ∧
    ((∀ u ∈ us, u ≠ .reset) → NoFault (takeTurns us s) ∧
      ∀ t : State, takeTurns us s = .next t →
        (∃ (es : List Turn) (te : State), es.Sublist us ∧ (∀ u ∈ es, u = .enc ∨ u = .host) ∧
          es.filter (· == .enc) = us.filter (· == .enc) ∧ takeTurns es (s.presentingOnlyTo .enc) = .next te ∧
          te.enc = t.enc ∧ te.host.cmds = commandsFor .enc t.host.cmds) ∧
        (∃ (ds : List Turn) (td : State), ds.Sublist us ∧ (∀ u ∈ ds, u = .dec ∨ u = .host) ∧
          ds.filter (· == .dec) = us.filter (· == .dec) ∧ takeTurns ds (s.presentingOnlyTo .dec) = .next td ∧
          td.dec = t.dec ∧ td.host.cmds = commandsFor .dec t.host.cmds))

/-- 70_reset_and_hazards.md R184, 10_state.md R32: after any turns of ENC, DEC and the HOST, the outcome a unit shows is
the operation applied to the operand of the command it accepted last, and there is none while that command runs;
whatever the order of the turns, the commands before it and the commands of the other unit. -/
def Obligations.OutcomeIsThatOfTheLastCommandAccepted : Prop :=
  ∀ (s t : State) (us : List Turn) (pre mid : List Command) (c : Command), (∀ u ∈ us, u ≠ .reset) →
    takeTurns us s = .next t → s.host.cmds = pre ++ c :: mid ++ t.host.cmds →
      (∀ v, decodeCommand s.build c = .ok (.encode v) → commandsFor .enc mid = [] →
        encOutcome t = if t.enc.state = .idle then some (encodeFn v) else none) ∧
      (∀ bs, decodeCommand s.build c = .ok (.decode bs) → commandsFor .dec mid = [] →
        decOutcome t = if t.dec.state = .idle then some (decodeFn s.build bs) else none) ∧
      (∀ bs, decodeCommand s.build c = .ok (.parse bs) → commandsFor .dec mid = [] →
        decOutcome t = if t.dec.state = .idle then some (parseFn s.build bs) else none)

/-- 10_state.md R32: the outcome of a command is the same whatever either unit held before, at every number of
steps after acceptance. -/
def Obligations.OutcomeDependsOnTheCommandAlone : Prop :=
  ∀ (s s' : State) (n : Nat), s.build = s'.build →
    (∀ v, s.enc.state = .idle → s'.enc.state = .idle → ∀ s₁ s₁' t t' : State,
      exec (.encode v) s = .next s₁ → exec (.encode v) s' = .next s₁' →
      takeTurns (List.replicate n .enc) s₁ = .next t → takeTurns (List.replicate n .enc) s₁' = .next t' →
        encOutcome t = encOutcome t') ∧
    (∀ i : Instr, (∃ bs, i = .decode bs ∨ i = .parse bs) → s.dec.state = .idle → s'.dec.state = .idle →
      ∀ s₁ s₁' t t' : State, exec i s = .next s₁ → exec i s' = .next s₁' →
      takeTurns (List.replicate n .dec) s₁ = .next t → takeTurns (List.replicate n .dec) s₁' = .next t' →
        decOutcome t = decOutcome t')

/-- The invariant holds at reset of every block, the default build among them. -/
def Obligations.InvariantAtReset : Prop :=
  (∀ p : Params, p.wellFormed = true → (State.resetOf p).Inv) ∧
  Params.default.wellFormed = true ∧ State.reset = State.resetOf .default

/-- Every step keeps the invariant of both units (40_encode.md R94, 41_decode.md R121, 10_state.md R24, R37). -/
def Obligations.EveryStepKeepsTheInvariant : Prop :=
  ∀ s t : State, s.Inv → step s = .next t → t.Inv

/-- From a state of the invariant no step reads IN or writes OUT outside its bounds (20_memory.md R54, R59, R62). -/
def Obligations.NoStepLeavesTheBuffers : Prop :=
  ∀ s : State, s.Inv → NoFault (step s)

/-- 10_state.md R34: the values the spec states for reset, at the reset state and after a reset step from every
state. (What R34 leaves unspecified is not part of this statement.) -/
def Obligations.ResetValues : Prop :=
  ∀ (s t : State), t = State.reset ∨ takeTurn .reset s = .next t →
    t.enc.state = .idle ∧ t.dec.state = .idle ∧ t.enc.busy = false ∧ t.dec.busy = false ∧
    t.enc.done = false ∧ t.dec.done = false ∧ errCode t.enc.err = 0 ∧ errCode t.dec.err = 0 ∧
    t.enc.len = 0 ∧ (∀ a, Memory.read t.enc.out a = none)

/-- 70_reset_and_hazards.md R170, R171: the reset step is enabled in every state; a command it meets has no outcome;
no command is accepted in it. What the HOST has still to present stays (log 5). -/
def Obligations.ResetStepAbortsEveryCommand : Prop :=
  ∀ (s : State) (us : List Turn), s.host.turns = .reset :: us →
    portReady s = false ∧ readsIn s = false ∧ writesOut s = false ∧
    ∃ t : State, step s = .next t ∧ t.build = s.build ∧ t.host.cmds = s.host.cmds ∧ t.host.turns = us ∧
      t.enc.state = .idle ∧ t.dec.state = .idle ∧ encOutcome t = none ∧ decOutcome t = none

/-- 60_exceptions.md R151: error entry writes the code, `done` and `IDLE` of the unit and touches nothing of the
other. That DEC's result registers, which R151 says hold no value then, are unchanged is the model's reading, log 4
(90_conflicts.md C9, 95_test_vectors.md T6). -/
def Obligations.ErrorEntry : Prop :=
  ∀ (s : State) (e : Err),
    ((raise .enc e s).enc.err = some e ∧ (raise .enc e s).enc.done = true ∧
      (raise .enc e s).enc.state = .idle ∧ (raise .enc e s).dec = s.dec ∧
      (raise .enc e s).host = s.host ∧ (raise .enc e s).build = s.build) ∧
    DecErrorLeaves e s (raise .dec e s)

/-- 10_state.md R28, R29: the outcome is available exactly while `done` is 1, as an error where `err` is not 0 and as
`Ok` with its result where it is. -/
def Obligations.OutcomesAreReadFromTheStatus : Prop :=
  ∀ s : State, s.Inv →
    ((encOutcome s).isSome = s.enc.done ∧ (decOutcome s).isSome = s.dec.done) ∧
    (∀ e, encOutcome s = some (.error e) ↔ s.enc.done = true ∧ s.enc.err = some e) ∧
    (∀ e, decOutcome s = some (.error e) ↔ s.dec.done = true ∧ s.dec.err = some e) ∧
    (s.enc.done = true → s.enc.err = none →
      ∃ bs, encOutcome s = some (.bytes bs) ∧ Memory.bytes s.enc.out = bs ∧ bs.length = s.enc.len ∧ 1 ≤ s.enc.len) ∧
    (s.dec.done = true → s.dec.err = none → s.dec.mode = .decode → decOutcome s = some (.value s.dec.value)) ∧
    (s.dec.done = true → s.dec.err = none → s.dec.mode = .parse →
      decOutcome s = some (.pair s.dec.value ((Memory.bytes s.dec.inBuf).drop s.dec.consumed)))

/-- 10_state.md R35, 20_memory.md R54, R57: the read port never asks for an index outside the input; the write port
shows the byte and the index that the step writes. -/
def Obligations.PortsStayInTheBuffers : Prop :=
  ∀ s : State, s.Inv →
    ((ports s).inRe = true → (ports s).inIdx < s.dec.inLen ∧
      ∃ b, memReadIn s.dec (ports s).inIdx = some b) ∧
    ((ports s).outWe = true → (∀ m, s.build.lMax = some m → (ports s).outIdx < m) ∧
      ∃ t : State, step s = .next t ∧ Memory.read t.enc.out (ports s).outIdx = some (ports s).outByte)

/-- 30_encoding.md R79: `cmd_ready` from the opcode. -/
def Obligations.CmdReadyFollowsTheOpcode : Prop :=
  ∀ s : State,
    (cmdReady s 0b00 = true ↔ s.enc.state = .idle) ∧ (cmdReady s 0b01 = true ↔ s.dec.state = .idle) ∧
    (cmdReady s 0b10 = true ↔ s.dec.state = .idle) ∧ cmdReady s 0b11 = false

/-- 70_reset_and_hazards.md R183: every accepted command ends after finitely many steps of its own unit. -/
def Obligations.EveryCommandEnds : Prop :=
  ∀ s : State, s.Inv →
    (s.enc.state = .run → ∃ n t, n ≤ varintLength s.enc.rem ∧
      takeTurns (List.replicate n .enc) s = .next t ∧ t.enc.state = .idle ∧ t.enc.done = true) ∧
    (s.dec.state = .run → ∃ n t, n ≤ s.dec.inLen - s.dec.idx + 1 ∧
      takeTurns (List.replicate n .dec) s = .next t ∧ t.dec.state = .idle ∧ t.dec.done = true)
end

