-- ==== Sys2Proof/Laws/Runs.lean ====
section
/-! SUPPORT. Runs of several turns: their first turn, what a turn of the HOST does to each unit, how commands leave the
port, and the induction over a run, once for all invariants. -/

namespace Sys2Proof.Machine

variable {s t : State}

/-! ### Runs -/

@[simp] theorem takeTurns_nil : takeTurns [] s = .next t ↔ s = t := by simp [takeTurns]

theorem takeTurns_cons (u : Turn) (us : List Turn) :
    takeTurns (u :: us) s = .next t ↔ ∃ s', takeTurn u s = .next s' ∧ takeTurns us s' = .next t := by
  simp only [takeTurns]
  cases takeTurn u s <;> simp

/-- What every turn of a run keeps, the run keeps. -/
theorem takeTurns_keeps {P : State → Prop} {us : List Turn}
    (hk : ∀ u ∈ us, ∀ s s' : State, P s → takeTurn u s = .next s' → P s') (h : P s)
    (ht : takeTurns us s = .next t) : P t := by
  induction us generalizing s with
  | nil => rw [← takeTurns_nil.mp ht]; exact h
  | cons u us ih =>
    obtain ⟨s', h1, h2⟩ := (takeTurns_cons u us).mp ht
    exact ih (fun x hx => hk x (.tail _ hx)) (hk u (.head _) s s' h h1) h2

/-! ### The HOST's turn -/

/-- A ready unit is idle (30_encoding.md R79). -/
theorem cmdReady_encode {op : BitVec 2} (h : op = opEncode) :
    cmdReady s op = true ↔ s.enc.state = .idle := by
  subst h; simp [cmdReady, opUnit, unitIdle]

theorem cmdReady_dec {op : BitVec 2} (h : op = opDecode ∨ op = opParse) :
    cmdReady s op = true ↔ s.dec.state = .idle := by
  rcases h with rfl | rfl <;> simp [cmdReady, opUnit, unitIdle, opEncode, opDecode, opParse]

theorem opUnit_encode {op : BitVec 2} (h : op = opEncode) : opUnit op = some .enc := by subst h; rfl

theorem opUnit_dec {op : BitVec 2} (h : op = opDecode ∨ op = opParse) : opUnit op = some .dec := by
  rcases h with rfl | rfl <;> rfl

/-- Everything a turn of the HOST can do: nothing, or an accept step of an idle unit, with the command at the head
taken from the port (10_state.md R36, 40_encode.md R91, 41_decode.md R111). -/
theorem hostTurn_accepts (h : takeTurn .host s = .next t) :
    t = s ∨
    (∃ c cs v, s.host.cmds = c :: cs ∧ decodeCommand s.build c = .ok (.encode v) ∧ opUnit c.op = some .enc ∧
      s.enc.state = .idle ∧
      t = { dropCmd s with enc := if v < 0 then s.enc.fail .invalidInput else s.enc.begin v.toNat }) ∨
    (∃ c cs m bs, s.host.cmds = c :: cs ∧
      decodeCommand s.build c = .ok (match m with | .decode => .decode bs | .parse => .parse bs) ∧
      opUnit c.op = some .dec ∧ s.dec.state = .idle ∧ t = { dropCmd s with dec := s.dec.begin m bs }) := by
  rcases hostTurn_cases h with ⟨-, rfl⟩ | ⟨_, _, _, -, -, -, rfl⟩ | ⟨c, cs, i, hc, hi, hr, hx⟩
  · exact .inl rfl
  · exact .inl rfl
  · rcases (decodeCommand_cases hi).2 with ⟨v, rfl, ho⟩ | ⟨bs, rfl, ho⟩ | ⟨bs, rfl, ho⟩
    · have hs := (cmdReady_encode ho).mp hr
      refine .inr (.inl ⟨c, cs, v, hc, hi, opUnit_encode ho, hs, ?_⟩)
      rcases encAccept_cases hx with ⟨-, hv, rfl⟩ | ⟨-, hv, rfl⟩ | ⟨hb, -⟩
      · rw [if_pos hv]; rfl
      · rw [if_neg (by omega)]; rfl
      · rw [dropCmd_enc, hs] at hb; cases hb
    · have hs := (cmdReady_dec (.inl ho)).mp hr
      refine .inr (.inr ⟨c, cs, .decode, bs, hc, hi, opUnit_dec (.inl ho), hs, ?_⟩)
      rcases decAccept_cases hx with ⟨-, rfl⟩ | ⟨hb, -⟩
      · rfl
      · rw [dropCmd_dec, hs] at hb; cases hb
    · have hs := (cmdReady_dec (.inr ho)).mp hr
      refine .inr (.inr ⟨c, cs, .parse, bs, hc, hi, opUnit_dec (.inr ho), hs, ?_⟩)
      rcases decAccept_cases hx with ⟨-, rfl⟩ | ⟨hb, -⟩
      · rfl
      · rw [dropCmd_dec, hs] at hb; cases hb

/-! ### The commands of a unit -/

@[simp] theorem commandsFor_nil (u : Agent) : commandsFor u [] = [] := rfl

theorem commandsFor_cons_own {u : Agent} {c : Command} (cs : List Command) (h : opUnit c.op = some u) :
    commandsFor u (c :: cs) = c :: commandsFor u cs := by simp [commandsFor, h]

theorem commandsFor_cons_other {u : Agent} {c : Command} (cs : List Command) (h : opUnit c.op ≠ some u) :
    commandsFor u (c :: cs) = commandsFor u cs := by simp [commandsFor, h]

@[simp] theorem presentingOnlyTo_build (u : Agent) : (s.presentingOnlyTo u).build = s.build := rfl
@[simp] theorem presentingOnlyTo_enc (u : Agent) : (s.presentingOnlyTo u).enc = s.enc := rfl
@[simp] theorem presentingOnlyTo_dec (u : Agent) : (s.presentingOnlyTo u).dec = s.dec := rfl
@[simp] theorem presentingOnlyTo_cmds (u : Agent) :
    (s.presentingOnlyTo u).host.cmds = commandsFor u s.host.cmds := rfl
@[simp] theorem presentingOnlyTo_turns (u : Agent) : (s.presentingOnlyTo u).host.turns = s.host.turns := rfl

end Sys2Proof.Machine
end

