-- ==== Sys2Proof/Tests/Slice0.lean ====
section
/-! SUPPORT. Tests, each from a word, a table or a trace of spec/ (named in its docstring) and not from the model's own
answers, and for every obligation with hypotheses the states and operands that meet them. -/

namespace Sys2Proof.Tests

open Sys2Proof Sys2Proof.Machine

/-! ### Small builds and states -/

/-- `W = 8`, `N = 4`, strict: `L_MAX` is 2. -/
def p8 : Params := { valueBits := .finite 8, lenBits := .finite 4, decodeStrict := true }

/-- `W = 8`, `N = 4`, permissive. -/
def p8permissive : Params := { p8 with decodeStrict := false }

/-- `W = 32`, `N = 32`, strict. -/
def p32 : Params := { valueBits := .finite 32, lenBits := .finite 32, decodeStrict := true }

/-- Both units idle. -/
def idle (p : Params) : State := State.resetOf p

/-- DEC in `RUN` at index `idx`, with `acc` gathered so far. -/
def scanning (p : Params) (m : DecMode) (bs : List Byte) (idx acc : Nat) : State :=
  { idle p with dec := { (Dec.reset.begin m bs) with idx := idx, acc := acc, shift := 7 * idx } }

/-- ENC in `RUN` with `bs` written and `rem` to come. -/
def emitting (p : Params) (bs : List Byte) (rem : Nat) : State :=
  { idle p with enc := { (Enc.reset.begin rem) with out := .ofBytes bs, len := bs.length } }

/-- Both units in `RUN`: ENCODE 300 after one byte, DECODE of `bs` after one byte. -/
def bothRunning : State :=
  { idle .default with
    enc := (emitting .default [0xAC] 2).enc
    dec := (scanning .default .decode [0xAC, 0x02] 1 44).dec }

/-- Both units ended with `Ok`: ENCODE 300, and `m` of `[0xAC, 0x02]`. -/
def bothDone (m : DecMode) : State :=
  { idle .default with
    enc := { Enc.reset with rem := 2, len := 2, done := true, out := .ofBytes [0xAC, 0x02] }
    dec := { (scanning .default m [0xAC, 0x02] 2 300).dec with
      shift := 7, state := .idle, done := true, value := 300, consumed := 2 } }

/-- A HOST with one command on the port and the turns `us`. -/
def presenting (s : State) (c : Command) (us : List Turn) : State :=
  { s with host := { cmds := [c], turns := us } }

/-- ENCODE 300 as 95_test_vectors.md P1 writes it. -/
def cmdEncode300 : Command := { op := 0b00, v := 0x12C, len := 0, buf := [] }

/-- DECODE of `AC 02` as 95_test_vectors.md P1 writes it. -/
def cmdDecode300 : Command := { op := 0b01, v := 0, len := 2, buf := [0xAC, 0x02] }

/-! ### WellFormed: an ill-formed term for each check -/

theorem test_wf_encode_too_large : Instr.wellFormed .default (.encode (2 ^ 64)) = false := by decide
theorem test_wf_encode_too_small : Instr.wellFormed .default (.encode (-(2 ^ 64) - 1)) = false := by decide
theorem test_wf_decode_too_long : Instr.wellFormed p8 (.decode (List.replicate 16 0x80)) = false := by decide
theorem test_wf_parse_too_long : Instr.wellFormed p8 (.parse (List.replicate 16 0x80)) = false := by decide
theorem test_wf_params_zero_w : Params.wellFormed { p8 with valueBits := .finite 0 } = false := by decide
theorem test_wf_params_zero_n : Params.wellFormed { p8 with lenBits := .finite 0 } = false := by decide
theorem test_wf_params_n_too_small :
    Params.wellFormed { valueBits := .finite 64, lenBits := .finite 3, decodeStrict := true } = false := by decide
theorem test_wf_params_inf_needs_inf :
    Params.wellFormed { valueBits := .inf, lenBits := .finite 32, decodeStrict := true } = false := by decide

/-! ### Decode: words written out from the spec -/

/-- P1 row 1. -/
theorem test_decode_word_encode : decode .default (.cmd cmdEncode300) = .ok (.encode 300) := by decide

/-- P4 row 1: `cmd_v = 1:FFFFFFFFFFFFFFFF`. -/
theorem test_decode_word_encode_minus_one :
    decode .default (.cmd { op := 0b00, v := 0x1FFFFFFFFFFFFFFFF, len := 0, buf := [] }) = .ok (.encode (-1)) := by
  decide

/-- Section 2.1, errors: `cmd_v` = 1 followed by `W` zeros is `-2^W`. -/
theorem test_decode_word_encode_most_negative :
    decode p8 (.cmd { op := 0b00, v := 0b100000000, len := 0, buf := [] }) = .ok (.encode (-256)) := by decide

/-- P1 row 2, with a buffer that goes on behind `cmd_len`. -/
theorem test_decode_word_decode :
    decode .default (.cmd { op := 0b01, v := 0, len := 2, buf := [0xAC, 0x02, 0x99] }) =
      .ok (.decode [0xAC, 0x02]) := by decide

/-- P2 row 3. -/
theorem test_decode_word_parse :
    decode .default (.cmd { op := 0b10, v := 0, len := 3, buf := [0xE5, 0x8E, 0x26] }) =
      .ok (.parse [0xE5, 0x8E, 0x26]) := by decide

/-- T1: the CONT byte `0xAC` has the group 44. -/
theorem test_decode_word_cont : decode .default (.byte 0b10101100) = .ok (.cont 0b0101100) := by decide

/-- T1: the TERM byte `0x02` has the group 2. -/
theorem test_decode_word_term : decode .default (.byte 0b00000010) = .ok (.term 0b0000010) := by decide

/-- 30_encoding.md R80. -/
theorem test_decode_word_reserved :
    decode .default (.cmd { op := 0b11, v := 0, len := 0, buf := [] }) = .error .reservedOpcode := by decide

/-- The rows of spec/opcode_table.json under the host's numbering (log 14). -/
theorem test_table_words :
    decodeTableWord 8 0x00 = some (.encode 0) ∧ decodeTableWord 8 0x01 = some (.decode []) ∧
    decodeTableWord 8 0x02 = some (.parse []) ∧ decodeTableWord 2 0x03 = none ∧
    decodeTableWord 8 0x80 = some (.cont 0) ∧ decodeTableWord 8 0x7F = some (.term 0x7F) := by decide

/-! ### The function level (95_test_vectors.md sections 1 and 2) -/

theorem test_enc_small : enc 0 = [0x00] ∧ enc 127 = [0x7F] ∧ enc 128 = [0x80, 0x01] ∧ enc 300 = [0xAC, 0x02] := by
  decide

/-- Rows 16383, 16384, 624485 and `2^64 - 1` of section 2.1. -/
theorem test_enc_long :
    enc 16383 = [0xFF, 0x7F] ∧ enc 16384 = [0x80, 0x80, 0x01] ∧ canonicalVarint 624485 = [0xE5, 0x8E, 0x26] ∧
    canonicalVarint (2 ^ 64 - 1) = List.replicate 9 0xFF ++ [0x01] := by
  refine ⟨by rfl, by rfl, by rfl, by rfl⟩

/-- Section 2.2 and P4: overlong, truncated, trailing and empty inputs. -/
theorem test_decode_fn :
    decodeFn .default [0xAC, 0x82, 0x00] = .value 300 ∧ decodeFn .default [0xAC] = .error .truncatedInput ∧
    decodeFn .default [0x00, 0x80] = .error .trailingData ∧
    decodeFn { Params.default with decodeStrict := false } [0xAC, 0x02, 0x00] = .value 300 ∧
    decodeFn .default [] = .error .truncatedInput := by decide

/-- Section 2.3: the width boundary at `W` = 8, 32, 64 and `inf`. -/
theorem test_decode_width :
    decodeFn p8 [0xFF, 0x01] = .value 255 ∧ decodeFn p8 [0x80, 0x02] = .error .valueOverflow ∧
    decodeFn p8 [0x80, 0x02, 0x00] = .error .valueOverflow ∧
    decodeFn p32 [0xFF, 0xFF, 0xFF, 0xFF, 0x0F] = .value 4294967295 ∧
    decodeFn p32 [0x80, 0x80, 0x80, 0x80, 0x10] = .error .valueOverflow ∧
    decodeFn .default (List.replicate 9 0xFF ++ [0x01]) = .value 18446744073709551615 ∧
    decodeFn .default (List.replicate 9 0x80 ++ [0x02]) = .error .valueOverflow ∧
    decodeFn .reference (List.replicate 9 0xFF ++ [0x02]) = .value 27670116110564327423 ∧
    decodeFn p8 (List.replicate 10 0x80 ++ [0x00]) = .value 0 := by decide

/-- Section 2.4. -/
theorem test_parse_fn :
    parseFn .default [0xAC, 0x02, 0x00] = .pair 300 [0x00] ∧ parseFn .default [0x05, 0x80] = .pair 5 [0x80] ∧
    parseFn .default [] = .error .truncatedInput ∧
    parseFn .default [0xE5, 0x8E, 0x26, 0xFF] = .pair 624485 [0xFF] := by decide

/-- P2: the HOST's loop over PARSE. -/
theorem test_parse_stream :
    parseStream .default 6 [0xAC, 0x02, 0x00, 0xE5, 0x8E, 0x26] = ([300, 0, 624485], []) := by decide

/-! ### Single steps (95_test_vectors.md section 2.5) -/

/-- What a test looks at in a next state. -/
def seen {α : Type} (f : State → α) : Host.Outcome State Fault Refusal → Option α
  | .next t => some (f t)
  | .fault _ => none
  | .refused _ => none

/-- T1, ENC-accept. -/
theorem test_step_encode :
    seen (fun t => (t.enc.state, t.enc.rem, t.enc.len, t.enc.out, t.enc.done, t.host.cmds))
      (step (presenting (bothDone .parse) cmdEncode300 [])) = some (.run, 300, 0, [], false, []) := by rfl

/-- T4: a negative operand ends in the accept step, and OUT is emptied. -/
theorem test_step_encode_negative :
    seen (fun t => (t.enc.state, t.enc.len, t.enc.out, t.enc.done, errCode t.enc.err))
      (exec (.encode (-1)) (bothDone .parse)) = some (.idle, 0, [], true, 1) := by decide

/-- T1, the two ENC-emit steps. -/
theorem test_step_emit :
    seen (fun t => (t.enc.state, t.enc.rem, t.enc.len, t.enc.out, t.enc.done))
      (step (emitting .default [] 300)) = some (.run, 2, 1, [(0, 0xAC)], false) ∧
    seen (fun t => (t.enc.state, t.enc.rem, t.enc.len, t.enc.out, t.enc.done))
      (step (emitting .default [0xAC] 2)) = some (.idle, 2, 2, [(0, 0xAC), (1, 0x02)], true) := by
  refine ⟨by rfl, by rfl⟩

/-- T6, DEC-accept. -/
theorem test_step_decode :
    seen (fun t => (t.dec.state, t.dec.mode, t.dec.inLen, t.dec.idx, t.dec.acc, t.dec.shift))
      (exec (.decode [0xAC, 0x02, 0x00]) (bothDone .parse)) = some (.run, .decode, 3, 0, 0, 0) := by decide

/-- T5, DEC-accept. -/
theorem test_step_parse :
    seen (fun t => (t.dec.state, t.dec.mode, t.dec.inLen, t.dec.idx, t.dec.acc, t.dec.shift))
      (exec (.parse [0xAC, 0x02, 0x00]) (bothDone .decode)) = some (.run, .parse, 3, 0, 0, 0) := by decide

/-- T5, the first DEC-scan step: a CONT byte. -/
theorem test_step_cont :
    seen (fun t => (t.dec.state, t.dec.idx, t.dec.acc, t.dec.shift, t.dec.done))
      (step (scanning .default .parse [0xAC, 0x02, 0x00] 0 0)) = some (.run, 1, 44, 7, false) := by decide

/-- T5, the second DEC-scan step: a TERM byte ends PARSE with `Ok` and its remainder. -/
theorem test_step_term :
    seen (fun t => (t.dec.state, t.dec.idx, t.dec.acc, t.dec.shift, decOutcome t))
      (step (scanning .default .parse [0xAC, 0x02, 0x00] 1 44)) =
        some (.idle, 2, 300, 7, some (.pair 300 [0x00])) := by decide

/-- T6, T7 and T9: the three errors of DEC. -/
theorem test_step_dec_errors :
    seen (fun t => (t.dec.state, t.dec.done, t.dec.err, decOutcome t))
      (step (scanning .default .decode [0xAC, 0x02, 0x00] 1 44)) =
        some (.idle, true, some .trailingData, some (.error .trailingData)) ∧
    seen (fun t => (t.dec.state, t.dec.done, t.dec.err, decOutcome t))
      (step (scanning .default .decode [0xAC] 1 44)) =
        some (.idle, true, some .truncatedInput, some (.error .truncatedInput)) ∧
    seen (fun t => (t.dec.state, t.dec.done, t.dec.err, decOutcome t))
      (step (scanning p8 .decode [0x80, 0x02] 1 0)) =
        some (.idle, true, some .valueOverflow, some (.error .valueOverflow)) := by
  refine ⟨by rfl, by rfl, by rfl⟩

/-- 70_reset_and_hazards.md R170, R171. -/
theorem test_step_reset :
    seen (fun t => (t.enc, t.dec.state, t.dec.done))
      (step { bothRunning with host := { cmds := [], turns := [.reset] } }) =
        some (Enc.reset, .idle, false) := by decide

/-- A placed table word runs as the first instruction after reset. -/
theorem test_fetch_word :
    seen (fun t => t.dec.state) (step (State.reset.withFetchWord 8 0x01)) = some .run ∧
    seen (fun t => t.dec.acc) (step (State.reset.withFetchWord 8 0xAC)) = some 44 ∧
    seen (fun t => t.dec.value) (step (State.reset.withFetchWord 8 0x7F)) = some 127 := by decide

/-! ### Hypotheses that can be met: a witness for each obligation that has some -/

/-- A state of the invariant with both units running. -/
theorem witness_inv_running : bothRunning.Inv := by
  refine ⟨by decide, ?_, ?_⟩
  · constructor
    · decide
    · decide
    · intro m h; simp [bothRunning, idle, State.resetOf, Params.default, Params.lMax] at h; subst h; decide
    · decide
    · decide
    · decide
    · intro _; decide
    · decide
    · intro _; decide
    · intro h; exact absurd h (by decide)
  · constructor
    all_goals decide

/-- States of the invariant in which both units have ended with `Ok`. -/
theorem witness_inv_done (m : DecMode) : (bothDone m).Inv := by
  refine ⟨by cases m <;> decide, ?_, ?_⟩
  · constructor
    · cases m <;> decide
    · cases m <;> decide
    · intro k h; simp [bothDone, idle, State.resetOf, Params.default, Params.lMax] at h; subst h
      cases m <;> decide
    · cases m <;> decide
    · cases m <;> decide
    · cases m <;> decide
    · intro h; exact absurd h (by cases m <;> decide)
    · cases m <;> decide
    · intro h; exact absurd h (by cases m <;> decide)
    · intro _; exact ⟨300, by cases m <;> decide, by cases m <;> decide⟩
  · cases m <;> constructor
    all_goals decide

/-- O1: the boundary operands of every constructor. -/
theorem witness_DecodeOfEncode :
    Instr.wellFormed .default (.encode (2 ^ 64 - 1)) = true ∧ Instr.wellFormed .default (.encode (-(2 ^ 64))) = true ∧
    Instr.wellFormed p8 (.decode (List.replicate 15 0x80)) = true ∧ Instr.wellFormed p8 (.parse []) = true ∧
    Instr.wellFormed .reference (.encode (10 ^ 30)) = true ∧ Instr.wellFormed p8 (.cont 0x7F) = true ∧
    Instr.wellFormed p8 (.term 0) = true := by decide

/-- UnusedCommandFieldsAreIgnored: commands that differ in the unused fields only. -/
theorem witness_UnusedCommandFields :
    (∃ c c' : Command, c ≠ c' ∧ c.op = c'.op ∧ c.op = opEncode ∧ c.v = c'.v) ∧
    (∃ c c' : Command, c ≠ c' ∧ c.op = c'.op ∧ c.op = opDecode ∧ c.len = c'.len ∧ c.buf = c'.buf) ∧
    (∃ c c' : Command, c ≠ c' ∧ c.op = c'.op ∧ c.op = opParse ∧ c.len = c'.len ∧ c.buf = c'.buf) :=
  ⟨⟨cmdEncode300, { cmdEncode300 with len := 7 }, by decide⟩,
    ⟨cmdDecode300, { cmdDecode300 with v := 7 }, by decide⟩,
    ⟨{ cmdDecode300 with op := 0b10 }, { cmdDecode300 with op := 0b10, v := 7 }, by decide⟩⟩

theorem witness_ReservedOpcode :
    ∃ (s : State) (c : Command), nextTurn s = .host ∧ s.host.cmds = [c] ∧ c.op = 0b11 :=
  ⟨presenting (idle p8) { cmdEncode300 with op := 0b11 } [], { cmdEncode300 with op := 0b11 }, by decide⟩

/-- The operand `2^(W+1)` and the operand -1, the length `2^N`, and a buffer one byte short. -/
theorem witness_Unpresentable :
    (∃ (s : State) (c : Command), nextTurn s = .host ∧ s.host.cmds = [c] ∧ c.op = opEncode ∧
      s.build.valueBits = .finite 8 ∧ (2 ^ (8 + 1) : Int) ≤ c.v) ∧
    (∃ (s : State) (c : Command), nextTurn s = .host ∧ s.host.cmds = [c] ∧ c.op = opEncode ∧
      s.build.valueBits = .finite 8 ∧ c.v < 0) ∧
    (∃ (s : State) (c : Command), nextTurn s = .host ∧ s.host.cmds = [c] ∧ c.op = opDecode ∧
      s.build.lenBits.holds c.len = false) ∧
    (∃ (s : State) (c : Command), nextTurn s = .host ∧ s.host.cmds = [c] ∧ c.op = opParse ∧
      s.build.lenBits.holds c.len = true ∧ c.buf.length < c.len) :=
  ⟨⟨presenting (idle p8) { cmdEncode300 with v := 512 } [], { cmdEncode300 with v := 512 }, by decide⟩,
    ⟨presenting (idle p8) { cmdEncode300 with v := -1 } [], { cmdEncode300 with v := -1 }, by decide⟩,
    ⟨presenting (idle p8) { cmdDecode300 with len := 16 } [], { cmdDecode300 with len := 16 }, by decide⟩,
    ⟨presenting (idle p8) { cmdDecode300 with op := 0b10, len := 3 } [], { cmdDecode300 with op := 0b10, len := 3 },
      by decide⟩⟩

/-- A ready unit and a busy one. -/
theorem witness_StepRunsTheCommand :
    (∃ (s : State) (c : Command) (i : Instr), nextTurn s = .host ∧ s.host.cmds = [c] ∧
      decodeCommand s.build c = .ok i ∧ cmdReady s c.op = true) ∧
    (∃ (s : State) (c : Command) (i : Instr), nextTurn s = .host ∧ s.host.cmds = [c] ∧
      decodeCommand s.build c = .ok i ∧ cmdReady s c.op = false) :=
  ⟨⟨presenting (idle .default) cmdEncode300 [], cmdEncode300, .encode 300, by decide⟩,
    ⟨presenting bothRunning cmdDecode300 [.host], cmdDecode300, .decode [0xAC, 0x02], by decide⟩⟩

/-- The last byte of an input. -/
theorem witness_StepRunsTheByte :
    ∃ (s : State) (b : Byte), nextTurn s = .dec ∧ s.dec.state = .run ∧ s.dec.idx < s.dec.inLen ∧
      Memory.read s.dec.inBuf s.dec.idx = some b :=
  ⟨scanning p8 .decode [0x80, 0x01] 1 0, 0x01, by decide⟩

theorem witness_StepTakesTheNextTurn :
    (∃ s : State, s.host.turns = [.dec]) ∧ (∃ s : State, s.host.turns = [] ∧ s.enc.state = .run) ∧
    (∃ s : State, s.host.turns = [] ∧ s.enc.state = .idle ∧ s.dec.state = .run) ∧
    (∃ s : State, s.host.turns = [] ∧ s.enc.state = .idle ∧ s.dec.state = .idle) :=
  ⟨⟨presenting (idle p8) cmdEncode300 [.dec], by decide⟩, ⟨bothRunning, by decide⟩,
    ⟨scanning p8 .decode [] 0 0, by decide⟩, ⟨idle p8, by decide⟩⟩

/-- A command and two bytes, on a DEC that is idle and on one that runs. -/
theorem witness_FetchWord :
    decodeTableWord 8 2 = some (.parse []) ∧
    tableWire 8 2 = some (.cmd { op := opParse, v := 0, len := 0, buf := [] }) ∧
    decodeTableWord 8 3 = some (.term 3) ∧ tableWire 8 3 = some (.byte 3) ∧
    decodeTableWord 8 255 = some (.cont 127) ∧ tableWire 8 255 = some (.byte 255) ∧
    (idle p8).dec.state = .idle ∧ bothRunning.dec.state = .run := by decide

/-- Both operand classes at their boundary, 0 and -1, on an idle ENC. -/
theorem witness_EncAccept :
    ∃ s : State, s.enc.state = .idle ∧ (-1 : Int) < 0 ∧ (0 : Int) ≤ 0 := ⟨bothDone .parse, by decide⟩

/-- The last index of OUT with `rem` 127, and the first with `rem` 128. -/
theorem witness_EncEmit :
    (∃ s : State, s.enc.state = .run ∧ (∀ m, s.build.lMax = some m → s.enc.len < m) ∧ s.enc.len = 1 ∧
      s.enc.rem < 128) ∧
    (∃ s : State, s.enc.state = .run ∧ (∀ m, s.build.lMax = some m → s.enc.len < m) ∧ 128 ≤ s.enc.rem) :=
  ⟨⟨emitting p8 [0xFF] 127, by decide, by rintro m ⟨⟩; decide, by decide⟩,
    ⟨emitting p8 [] 128, by decide, by rintro m ⟨⟩; decide, by decide⟩⟩

/-- The greatest and the least operand of the build. -/
theorem witness_EncodeRun :
    ∃ s : State, s.build.wellFormed = true ∧ s.enc.state = .idle ∧
      Instr.wellFormed s.build (.encode 255) = true ∧ Instr.wellFormed s.build (.encode (-256)) = true :=
  ⟨idle p8, by decide⟩

/-- A negative operand with no emit step, and 300 after one of its two emit steps. -/
theorem witness_EncodeTakesItsLength :
    (∃ s s₁ t : State, s.build.wellFormed = true ∧ Instr.wellFormed s.build (.encode (-1)) = true ∧
      s.enc.state = .idle ∧ exec (.encode (-1)) s = .next s₁ ∧ takeTurns (List.replicate 0 .enc) s₁ = .next t) ∧
    (∃ s s₁ t : State, s.build.wellFormed = true ∧ Instr.wellFormed s.build (.encode 300) = true ∧
      s.enc.state = .idle ∧ exec (.encode 300) s = .next s₁ ∧ takeTurns (List.replicate 1 .enc) s₁ = .next t) :=
  ⟨⟨idle p8, _, _, by decide, by decide, by decide, rfl, rfl⟩,
    ⟨idle .default, _, _, by decide, by decide, by decide, rfl, rfl⟩⟩

/-- 300 under an interleaving, in `RUN` with a DECODE accepted meanwhile, and at its end with none. -/
theorem witness_EncEmitLoop :
    (∃ s s₁ t : State, s.enc.state = .idle ∧ exec (.encode 300) s = .next s₁ ∧
      takeTurns [.host, .dec, .enc] s₁ = .next t ∧ NoneAcceptedFor .enc s₁ t ∧ t.enc.state = .run ∧ 1 ≤ t.enc.len ∧
      t.host.cmds = []) ∧
    (∃ s s₁ t : State, s.enc.state = .idle ∧ exec (.encode 300) s = .next s₁ ∧
      takeTurns [.enc, .dec, .enc] s₁ = .next t ∧ NoneAcceptedFor .enc s₁ t ∧ t.enc.state = .idle) := by
  refine ⟨⟨presenting (idle .default) cmdDecode300 [], _, _, by decide, rfl, rfl, ?_, by decide⟩,
    ⟨idle .default, _, _, by decide, rfl, rfl, ?_, by decide⟩⟩
  · intro cs h
    change [cmdDecode300] = cs ++ [] at h
    rw [List.append_nil] at h; rw [← h]; decide
  · intro cs h
    change [] = cs ++ [] at h
    rw [List.append_nil] at h; rw [← h]; decide

/-- An overlong varint of 300 of greater length, the canonical one, and both ends of the range of two bytes. -/
theorem witness_EncIsMinimal :
    isVarint [0xAC, 0x82, 0x00] = true ∧ groupsValue [0xAC, 0x82, 0x00] = 300 ∧
    isVarint [0xAC, 0x02] = true ∧ groupsValue [0xAC, 0x02] = 300 ∧
    2 ^ (7 * (2 - 1)) ≤ 128 ∧ 16383 < 2 ^ (7 * 2) := by decide

theorem witness_LMax : Params.wellFormed p8 = true ∧ Params.wellFormed .reference = true := by decide

theorem witness_EncIsInjective : ∃ v w : Nat, enc v = enc w := ⟨300, 300, rfl⟩

theorem witness_DecAccept : ∃ s : State, s.dec.state = .idle := ⟨bothDone .decode, by decide⟩

/-- The greatest group that fits at the last shift, and one that just does not. -/
theorem witness_ContAndTerm :
    (∃ s : State, s.dec.state = .run ∧ s.dec.idx < s.dec.inLen ∧
      s.build.valueBits.holds ((1 : Group).toNat <<< s.dec.shift) = true ∧
      ¬ (s.dec.mode = .decode ∧ s.build.decodeStrict = true ∧ s.dec.idx + 1 < s.dec.inLen)) ∧
    (∃ s : State, s.dec.state = .run ∧ s.dec.idx < s.dec.inLen ∧
      s.build.valueBits.holds ((2 : Group).toNat <<< s.dec.shift) = false) :=
  ⟨⟨scanning p8 .decode [0xFF, 0x01] 1 127, by decide⟩, ⟨scanning p8 .decode [0x80, 0x02] 1 0, by decide⟩⟩

/-- The empty input, at its end at once. -/
theorem witness_ExhaustedInput : ∃ s : State, s.dec.state = .run ∧ s.dec.idx = s.dec.inLen :=
  ⟨scanning p8 .parse [] 0 0, by decide⟩

/-- One byte after the terminator. -/
theorem witness_TrailingData :
    ∃ s : State, s.dec.state = .run ∧ s.build.valueBits.holds ((0 : Group).toNat <<< s.dec.shift) = true ∧
      s.dec.mode = .decode ∧ s.build.decodeStrict = true ∧ s.dec.idx + 1 < s.dec.inLen :=
  ⟨scanning p8 .decode [0x00, 0x80] 0 0, by decide⟩

/-- The five ways a DEC-scan step goes. -/
theorem witness_DecScanStep :
    (∃ s : State, s.dec.state = .run ∧ s.dec.idx = s.dec.inLen) ∧
    (∃ (s : State) (b : Byte), s.dec.state = .run ∧ s.dec.idx < s.dec.inLen ∧
      Memory.read s.dec.inBuf s.dec.idx = some b ∧
      s.build.valueBits.holds ((b.toNat % 128) <<< s.dec.shift) = false) ∧
    (∃ (s : State) (b : Byte), s.dec.state = .run ∧ s.dec.idx < s.dec.inLen ∧
      Memory.read s.dec.inBuf s.dec.idx = some b ∧
      s.build.valueBits.holds ((b.toNat % 128) <<< s.dec.shift) = true ∧ 128 ≤ b.toNat) ∧
    (∃ (s : State) (b : Byte), s.dec.state = .run ∧ s.dec.idx < s.dec.inLen ∧
      Memory.read s.dec.inBuf s.dec.idx = some b ∧
      s.build.valueBits.holds ((b.toNat % 128) <<< s.dec.shift) = true ∧ b.toNat < 128 ∧
      s.dec.mode = .decode ∧ s.build.decodeStrict = true ∧ s.dec.idx + 1 < s.dec.inLen) ∧
    (∃ (s : State) (b : Byte), s.dec.state = .run ∧ s.dec.idx < s.dec.inLen ∧
      Memory.read s.dec.inBuf s.dec.idx = some b ∧
      s.build.valueBits.holds ((b.toNat % 128) <<< s.dec.shift) = true ∧ b.toNat < 128 ∧
      ¬ (s.dec.mode = .decode ∧ s.build.decodeStrict = true ∧ s.dec.idx + 1 < s.dec.inLen)) :=
  ⟨⟨scanning p8 .decode [0x80] 1 0, by decide⟩, ⟨scanning p8 .decode [0x80, 0x02] 1 0, 0x02, by decide⟩,
    ⟨scanning p8 .decode [0x80] 0 0, 0x80, by decide⟩, ⟨scanning p8 .decode [0x7F, 0x00] 0 0, 0x7F, by decide⟩,
    ⟨scanning p8permissive .decode [0x7F, 0x00] 0 0, 0x7F, by decide⟩⟩

theorem witness_BusyUnits : ∃ s : State, s.enc.state = .run ∧ s.dec.state = .run := ⟨bothRunning, by decide⟩

theorem witness_IdleUnits : ∃ s : State, s.enc.state = .idle ∧ s.dec.state = .idle := ⟨bothDone .parse, by decide⟩

/-- A PARSE in `RUN` with an ENCODE accepted meanwhile. -/
theorem witness_DecScanLoop :
    ∃ s s₁ t : State, s.dec.state = .idle ∧ exec (.parse [0xAC, 0x02]) s = .next s₁ ∧
      takeTurns [.host, .dec, .enc] s₁ = .next t ∧ NoneAcceptedFor .dec s₁ t ∧ t.dec.state = .run ∧
      t.host.cmds = [] := by
  refine ⟨presenting (idle .default) cmdEncode300 [], _, _, by decide, rfl, rfl, ?_, by decide⟩
  intro cs h
  change [cmdEncode300] = cs ++ [] at h
  rw [List.append_nil] at h; rw [← h]; decide

/-- Two accepted commands, in `RUN` after one DEC turn, and a scan with each result that the counts name. -/
theorem witness_ScanRun :
    (∃ s s₁ t : State, s.dec.state = .idle ∧ exec (.decode [0xAC, 0x02]) s = .next s₁ ∧
      takeTurns (List.replicate 1 .dec) s₁ = .next t ∧ t.dec.state = .run) ∧
    (∃ s s₁ t : State, s.dec.state = .idle ∧ exec (.parse [0xAC, 0x02]) s = .next s₁ ∧
      takeTurns [.enc, .dec] s₁ = .next t ∧ t.dec.state = .run) ∧
    scan (.finite 8) [0xFF, 0x01] = .ok (255, 2) ∧ scan (.finite 8) [0x80] = .error .truncatedInput ∧
    (∃ (pre : List Byte) (b : Byte) (post : List Byte), [0x80, 0x02] = pre ++ b :: post ∧
      (∀ x ∈ pre, contBit x = true) ∧ (Width.finite 8).holds (groupsValue pre) = true ∧
      (Width.finite 8).holds (groupsValue (pre ++ [b])) = false) :=
  ⟨⟨idle .default, _, _, by decide, rfl, rfl, by decide⟩, ⟨idle .default, _, _, by decide, rfl, rfl, by decide⟩,
    by decide, by decide, ⟨[0x80], 0x02, [], by decide⟩⟩

/-- The width of the second form's two cases, and an accumulator that stays within the width. -/
theorem witness_WidthCheckForms :
    (255 : Nat) < 2 ^ 8 ∧ overflowsWidth (.finite 8) (placeGroup 1 7) = false ∧ (127 : Nat) < 2 ^ 7 := by decide

/-- The greatest value of the width. -/
theorem witness_Domain : p8.valueBits.holds 255 = true ∧ Params.reference.valueBits.holds (10 ^ 30) = true := by
  decide

theorem witness_DecodeIsParse : p8.decodeStrict = true ∧ p8permissive.decodeStrict = false := by decide

/-- An empty and a nonempty remainder. -/
theorem witness_ParseRemainder :
    parseFn p8 [0xFF, 0x01] = .pair 255 [] ∧ parseFn p8 [0x05, 0x80] = .pair 5 [0x80] := by decide

/-- A sequence strict DECODE accepts, and one it does not. -/
theorem witness_StrictDecode :
    p8.decodeStrict = true ∧ (isVarint [0xFF, 0x01] = true ∧ p8.valueBits.holds (groupsValue [0xFF, 0x01]) = true) ∧
    ¬ (isVarint [0x00, 0x00] = true ∧ p8.valueBits.holds (groupsValue [0x00, 0x00]) = true) := by decide

/-- An overlong varint and a canonical one. -/
theorem witness_Overlong :
    isVarint [0x80, 0x00] = true ∧ p8.valueBits.holds (groupsValue [0x80, 0x00]) = true ∧
    isVarint [0xFF, 0x01] = true ∧ p8.valueBits.holds (groupsValue [0xFF, 0x01]) = true := by decide

theorem witness_Streams : ∀ v ∈ [0, 255], p8.valueBits.holds v = true := by decide

/-- A next state by every kind of step. -/
theorem witness_UnitsShareNoState :
    ∃ s : State, (∃ t, takeTurn .enc s = .next t) ∧ (∃ t, takeTurn .dec s = .next t) ∧
      (∃ t, exec (.encode 5) s = .next t) ∧ (∃ t, exec (.term 2) s = .next t) :=
  ⟨bothRunning, ⟨_, rfl⟩, ⟨_, rfl⟩, ⟨_, rfl⟩, ⟨_, rfl⟩⟩

/-- Turns of the units only, and turns with a HOST that gives both units a command while both run. -/
theorem witness_Interleaving :
    (∃ (s : State) (us : List Turn), s.Inv ∧ (∀ u ∈ us, u = .enc ∨ u = .dec) ∧ us = [.dec, .enc, .dec]) ∧
    (∃ (s : State) (us : List Turn) (t : State), s.Inv ∧ (∀ u ∈ us, u ≠ .reset) ∧ takeTurns us s = .next t ∧
      s.host.cmds = [cmdEncode300, cmdDecode300] ∧ us = [.host, .enc, .dec, .host, .host, .dec, .enc] ∧
      t.host.cmds = []) :=
  ⟨⟨bothRunning, _, witness_inv_running, by decide, rfl⟩,
    ⟨{ bothRunning with host := { cmds := [cmdEncode300, cmdDecode300], turns := [] } }, _, _,
      ⟨witness_inv_running.build, witness_inv_running.enc, witness_inv_running.dec⟩, by decide, rfl, rfl, rfl, rfl⟩⟩

/-- An ENCODE accepted last by ENC with a DECODE after it, ended; a DECODE accepted last by DEC, still running; and a
PARSE. -/
theorem witness_OutcomeIsThatOfTheLast :
    (∃ s t : State, takeTurns [.host, .host, .enc, .dec, .enc] s = .next t ∧
      s.host.cmds = [] ++ cmdEncode300 :: [cmdDecode300] ++ t.host.cmds ∧
      decodeCommand s.build cmdEncode300 = .ok (.encode 300) ∧ commandsFor .enc [cmdDecode300] = [] ∧
      t.enc.state = .idle) ∧
    (∃ s t : State, takeTurns [.host, .host, .enc, .dec, .enc] s = .next t ∧
      s.host.cmds = [cmdEncode300] ++ cmdDecode300 :: [] ++ t.host.cmds ∧
      decodeCommand s.build cmdDecode300 = .ok (.decode [0xAC, 0x02]) ∧ commandsFor .dec [] = [] ∧
      t.dec.state = .run) ∧
    (∃ s t : State, takeTurns [.host] s = .next t ∧
      s.host.cmds = [] ++ { cmdDecode300 with op := 0b10 } :: [] ++ t.host.cmds ∧
      decodeCommand s.build { cmdDecode300 with op := 0b10 } = .ok (.parse [0xAC, 0x02]) ∧
      commandsFor .dec [] = []) :=
  ⟨⟨{ idle .default with host := { cmds := [cmdEncode300, cmdDecode300], turns := [] } }, _, rfl, by decide⟩,
    ⟨{ idle .default with host := { cmds := [cmdEncode300, cmdDecode300], turns := [] } }, _, rfl, by decide⟩,
    ⟨presenting (idle .default) { cmdDecode300 with op := 0b10 } [], _, rfl, by decide⟩⟩

/-- The same command on a unit that held a result and on one after reset. -/
theorem witness_OutcomeDependsOnTheCommandAlone :
    ∃ s s' : State, s.build = s'.build ∧ s.enc ≠ s'.enc ∧ s.dec ≠ s'.dec ∧
      (s.enc.state = .idle ∧ s'.enc.state = .idle ∧ ∃ s₁ s₁' t t' : State,
        exec (.encode 5) s = .next s₁ ∧ exec (.encode 5) s' = .next s₁' ∧
        takeTurns (List.replicate 1 .enc) s₁ = .next t ∧ takeTurns (List.replicate 1 .enc) s₁' = .next t') ∧
      (s.dec.state = .idle ∧ s'.dec.state = .idle ∧ ∃ s₁ s₁' t t' : State,
        exec (.parse [5]) s = .next s₁ ∧ exec (.parse [5]) s' = .next s₁' ∧
        takeTurns (List.replicate 1 .dec) s₁ = .next t ∧ takeTurns (List.replicate 1 .dec) s₁' = .next t') :=
  ⟨bothDone .decode, idle .default, by decide, by decide, by decide,
    ⟨by decide, by decide, _, _, _, _, rfl, rfl, rfl, rfl⟩, ⟨by decide, by decide, _, _, _, _, rfl, rfl, rfl, rfl⟩⟩

/-- The smallest `N` for `W = 64`. -/
theorem witness_InvariantAtReset :
    Params.wellFormed { valueBits := .finite 64, lenBits := .finite 4, decodeStrict := false } = true := by decide

theorem witness_EveryStepKeepsTheInvariant : ∃ s t : State, s.Inv ∧ step s = .next t ∧ t ≠ s :=
  ⟨bothRunning, _, witness_inv_running, rfl, by decide⟩

theorem witness_NoStepLeavesTheBuffers : ∃ s : State, s.Inv ∧ s.enc.state = .run := ⟨bothRunning, witness_inv_running, rfl⟩

theorem witness_ResetValues : (∃ t : State, t = State.reset) ∧ ∃ s t : State, takeTurn .reset s = .next t ∧ t ≠ s :=
  ⟨⟨_, rfl⟩, ⟨bothRunning, _, rfl, by decide⟩⟩

theorem witness_ResetStepAborts :
    ∃ s : State, s.host.turns = [.reset] ∧ s.enc.state = .run ∧ s.dec.state = .run :=
  ⟨presenting bothRunning cmdEncode300 [.reset], by decide⟩

/-- Outcomes of every kind: `Ok` of each operation, and an error. -/
theorem witness_OutcomesAreRead :
    (∃ s : State, s.Inv ∧ s.enc.done = true ∧ s.enc.err = none ∧ s.dec.done = true ∧ s.dec.err = none ∧
      s.dec.mode = .decode) ∧
    (∃ s : State, s.Inv ∧ s.dec.done = true ∧ s.dec.err = none ∧ s.dec.mode = .parse) ∧
    (∃ s : State, s.enc.done = true ∧ s.enc.err = some .invalidInput) :=
  ⟨⟨bothDone .decode, witness_inv_done _, by decide⟩, ⟨bothDone .parse, witness_inv_done _, by decide⟩,
    ⟨{ idle p8 with enc := Enc.reset.fail .invalidInput }, by decide⟩⟩

/-- The last index of IN on the read port, and a write port in use. -/
theorem witness_Ports :
    (∃ s : State, s.Inv ∧ (ports s).inRe = true) ∧ (∃ s : State, s.Inv ∧ (ports s).outWe = true) :=
  ⟨⟨{ bothRunning with host := { cmds := [], turns := [.dec] } },
      ⟨witness_inv_running.build, witness_inv_running.enc, witness_inv_running.dec⟩, by decide⟩,
    ⟨bothRunning, witness_inv_running, by decide⟩⟩

theorem witness_EveryCommandEnds : ∃ s : State, s.Inv ∧ s.enc.state = .run ∧ s.dec.state = .run :=
  ⟨bothRunning, witness_inv_running, by decide⟩

end Sys2Proof.Tests
end

section
/-! PROOFS. The length of an output of ENCODE: how many bytes `enc` writes for a value of a given number of groups
(40_encode.md R96), and from that the constant `L_MAX` (00_scope.md R7). -/

namespace Sys2Proof.Machine

/-! ### The length of `enc` -/

/-- `enc v` fits in `k` bytes exactly when `v` fits in `k` groups; even `0` takes one byte (40_encode.md R96). -/
theorem length_enc_le_iff (v k : Nat) : (enc v).length ≤ k ↔ 0 < k ∧ v < 2 ^ (7 * k) := by
  induction v using enc_induction generalizing k with
  | base v hv =>
    have hfits (hk : 0 < k) : v < 2 ^ (7 * k) := by
      have : 2 ^ 7 ≤ 2 ^ (7 * k) := Nat.pow_le_pow_right (by decide) (by omega)
      omega
    rw [enc_of_lt hv, List.length_singleton]
    exact ⟨fun hk => ⟨hk, hfits hk⟩, fun h => h.1⟩
  | next v hv ih =>
    rw [enc_of_ge hv, List.length_cons]
    cases k with
    | zero => simp
    | succ k =>
      have hdrop : dropGroup v < 2 ^ (7 * k) ↔ v < 2 ^ (7 * (k + 1)) := by
        rw [dropGroup_eq, Nat.mul_succ, Nat.pow_add]
        exact Nat.div_lt_iff_lt_mul (by decide)
      have hpos (h : v < 2 ^ (7 * (k + 1))) : 0 < k := by
        refine Nat.pos_of_ne_zero ?_
        rintro rfl
        omega
      rw [Nat.add_le_add_iff_right, ih, hdrop]
      exact ⟨fun h => ⟨k.succ_pos, h.2⟩, fun h => ⟨hpos h.2, h.2⟩⟩

/-- A value of `w` bits takes at most `ceil(w / 7)` bytes. -/
theorem length_enc_le_of_lt {v w : Nat} (hw : 0 < w) (hv : v < 2 ^ w) : (enc v).length ≤ (w + 6) / 7 :=
  (length_enc_le_iff v _).2 ⟨by omega, hv.trans_le (Nat.pow_le_pow_right (by decide) (by omega))⟩

/-- The greatest value of `w` bits takes that many: one byte fewer has no room for its top bit. -/
theorem length_enc_max {w : Nat} (hw : 0 < w) : (enc (2 ^ w - 1)).length = (w + 6) / 7 := by
  have hle : (enc (2 ^ w - 1)).length ≤ (w + 6) / 7 :=
    length_enc_le_of_lt hw (Nat.sub_one_lt_of_lt (Nat.two_pow_pos w))
  have hnot : ¬ (enc (2 ^ w - 1)).length ≤ (w + 6) / 7 - 1 := by
    rw [length_enc_le_iff]
    have : 2 ^ (7 * ((w + 6) / 7 - 1)) < 2 ^ w := Nat.pow_lt_pow_right (by decide) (by omega)
    omega
  omega

/-- Without a width there is no bound: a value of more than `m` groups takes more than `m` bytes. -/
theorem lt_length_enc_two_pow (m : Nat) : m < (enc (2 ^ (7 * m))).length := by
  rw [← Nat.not_le, length_enc_le_iff]
  exact fun h => Nat.lt_irrefl _ h.2

/-! ### `L_MAX` -/

theorem lMax_of_finite {p : Params} {w : Nat} (h : p.valueBits = .finite w) : p.lMax = some ((w + 6) / 7) := by
  simp [Params.lMax, h]

theorem lMax_of_inf {p : Params} (h : p.valueBits = .inf) : p.lMax = none := by
  simp [Params.lMax, h]

/-- 00_scope.md R6: a finite width of a block is positive. -/
theorem valueBits_pos {p : Params} {w : Nat} (hp : p.wellFormed = true) (h : p.valueBits = .finite w) : 0 < w := by
  cases hn : p.lenBits with
  | finite n =>
    simp only [Params.wellFormed, h, hn, Bool.and_eq_true, decide_eq_true_eq] at hp
    obtain ⟨⟨hpos, -⟩, -⟩ := hp
    exact hpos
  | inf => simpa [Params.wellFormed, h, hn] using hp

/-- Settles O19: `enc v` has at most `k` bytes exactly when `v` has at most `k` groups, and `2^W - 1` has
`ceil(W / 7)` of them. -/
theorem lMaxIsTheGreatestLength : Obligations.LMaxIsTheGreatestLength := by
  intro p hp
  constructor
  · intro w hw
    have hpos : 0 < w := valueBits_pos hp hw
    exact ⟨_, lMax_of_finite hw, rfl, fun v => length_enc_le_of_lt hpos, length_enc_max hpos⟩
  · intro hinf
    exact ⟨lMax_of_inf hinf, fun m => ⟨_, lt_length_enc_two_pow m⟩⟩

end Sys2Proof.Machine
end

section
/-! PROOFS. The turn of a unit as a function of that unit's own state and the build, and what the function keeps
(10_state.md R21, R22; 40_encode.md R92, 41_decode.md R112). -/

namespace Sys2Proof.Machine

variable {s t : State} {p : Params}

/-! ### ENC's turn -/

/-- ENC after a turn of its own (40_encode.md R92). That OUT has room is no part of it: without room ENC has no step. -/
def Enc.emitTurn (e : Enc) : Enc :=
  match e.state with
  | .idle => e
  | .run =>
    if e.rem < 128 then { e.append (emitByte e.rem) with done := true, err := none, state := .idle }
    else { e.append (emitByte e.rem) with rem := dropGroup e.rem }

theorem Enc.emitTurn_of_idle {e : Enc} (h : e.state = .idle) : e.emitTurn = e := by
  simp [emitTurn, h]

theorem Enc.emitTurn_of_lt {e : Enc} (h : e.state = .run) (hr : e.rem < 128) :
    e.emitTurn = { e.append (emitByte e.rem) with done := true, err := none, state := .idle } := by
  simp [emitTurn, h, hr]

theorem Enc.emitTurn_of_ge {e : Enc} (h : e.state = .run) (hr : 128 ≤ e.rem) :
    e.emitTurn = { e.append (emitByte e.rem) with rem := dropGroup e.rem } := by
  simp [emitTurn, h, Nat.not_lt.2 hr]

/-- The byte goes to index `enc.len` whether or not it is the last one. -/
theorem Enc.emitTurn_out {e : Enc} (h : e.state = .run) :
    e.emitTurn.out = e.out.write e.len (emitByte e.rem) := by
  rcases Nat.lt_or_ge e.rem 128 with hr | hr
  · rw [emitTurn_of_lt h hr, append_out]
  · rw [emitTurn_of_ge h hr, append_out]

theorem takeTurn_enc_of_idle (h : s.enc.state = .idle) : takeTurn .enc s = .next s := by
  simp [takeTurn, encEmit, h]

/-- A running ENC that has room in OUT has a step (40_encode.md R92, 20_memory.md R59). -/
theorem takeTurn_enc_of_run (h : s.enc.state = .run) (ho : outIndexExists s.build s.enc.len = true) :
    takeTurn .enc s = .next { s with enc := s.enc.emitTurn } := by
  rcases Nat.lt_or_ge s.enc.rem 128 with hr | hr
  · simp [takeTurn, encEmit, h, ho, hr, Enc.emitTurn_of_lt]
  · simp [takeTurn, encEmit, h, ho, Nat.not_lt.2 hr, Enc.emitTurn_of_ge h hr]

theorem takeTurn_enc_next (h : takeTurn .enc s = .next t) : t = { s with enc := s.enc.emitTurn } := by
  rcases encEmit_cases h with ⟨hs, rfl⟩ | ⟨hs, -, hr, rfl⟩ | ⟨hs, -, hr, rfl⟩
  · rw [Enc.emitTurn_of_idle hs]
  · rw [Enc.emitTurn_of_lt hs hr]
  · rw [Enc.emitTurn_of_ge hs hr]

/-! ### DEC's turn -/

/-- A running DEC after the byte it has read (41_decode.md R112). -/
def Dec.takeByte (p : Params) (b : Byte) (d : Dec) : Dec :=
  if p.valueBits.holds (placeGroup (groupOf b) d.shift) = false then d.fail p .valueOverflow
  else if contBit b then (d.take (groupOf b)).goOn
  else if d.mode == .decode && p.decodeStrict && decide (d.idx + 1 < d.inLen) then
    (d.take (groupOf b)).fail p .trailingData
  else (d.take (groupOf b)).finish

/-- DEC after a turn of its own (41_decode.md R112). Where the byte to read is not there DEC has no step, and the
function answers DEC unchanged. -/
def Dec.scanTurn (p : Params) (d : Dec) : Dec :=
  match d.state with
  | .idle => d
  | .run =>
    if d.idx = d.inLen then d.fail p .truncatedInput
    else match d.inBuf.read d.idx with
      | some b => d.takeByte p b
      | none => d

theorem Dec.scanTurn_of_idle {d : Dec} (h : d.state = .idle) : d.scanTurn p = d := by
  simp [scanTurn, h]

theorem Dec.scanTurn_of_end {d : Dec} (h : d.state = .run) (hi : d.idx = d.inLen) :
    d.scanTurn p = d.fail p .truncatedInput := by
  simp [scanTurn, h, hi]

theorem Dec.scanTurn_of_byte {d : Dec} {b : Byte} (h : d.state = .run) (hi : d.idx ≠ d.inLen)
    (hb : d.inBuf.read d.idx = some b) : d.scanTurn p = d.takeByte p b := by
  simp [scanTurn, h, hi, hb]

/-- The fields that say which command runs on which input. -/
def Dec.command (d : Dec) : DecMode × Memory × Nat := (d.mode, d.inBuf, d.inLen)

theorem Dec.command_takeByte (d : Dec) (b : Byte) : (d.takeByte p b).command = d.command := by
  unfold takeByte
  split
  · rfl
  · split
    · rfl
    · split <;> rfl

/-- No step of DEC touches the command and the input it runs on (20_memory.md R53). -/
theorem Dec.command_scanTurn (d : Dec) : (d.scanTurn p).command = d.command := by
  unfold scanTurn
  split
  · rfl
  · split
    · rfl
    · split
      · exact command_takeByte d _
      · rfl

theorem scanWith_of_lt {g : Group} {k : State → Host.Outcome State Fault Refusal} (h : s.dec.state = .run)
    (hi : s.dec.idx < s.dec.inLen) :
    scanWith g k s =
      if s.build.valueBits.holds (placeGroup g s.dec.shift) = false then .next (raise .dec .valueOverflow s)
      else k { s with dec := s.dec.take g } := by
  simp [scanWith, h, hi.ne, Nat.not_lt.2 hi.le, overflowsWidth_eq]

theorem exec_decodeByte {b : Byte} (h : s.dec.state = .run) (hi : s.dec.idx < s.dec.inLen) :
    exec (decodeByte b) s = .next { s with dec := s.dec.takeByte s.build b } := by
  unfold decodeByte Dec.takeByte
  split
  · rw [exec, execCont, scanWith_of_lt h hi]
    split <;> rfl
  · rw [exec, execTerm, scanWith_of_lt h hi]
    split
    · rfl
    · rw [trailing_take]
      split <;> rfl

theorem takeTurn_dec_of_idle (h : s.dec.state = .idle) : takeTurn .dec s = .next s := by
  simp [takeTurn, decTurn, h]

theorem takeTurn_dec_next (h : takeTurn .dec s = .next t) :
    t = { s with dec := s.dec.scanTurn s.build } := by
  rcases decTurn_cases h with ⟨hs, rfl⟩ | ⟨hs, hi, rfl⟩ | ⟨hs, hi, b, hb, hx⟩
  · rw [Dec.scanTurn_of_idle hs]
  · rw [Dec.scanTurn_of_end hs hi]; rfl
  · rw [exec_decodeByte hs hi] at hx
    cases hx
    rw [Dec.scanTurn_of_byte hs hi.ne hb]

/-! ### What an instruction leaves alone -/

theorem exec_encode_frame {v : Int} (h : exec (.encode v) s = .next t) : ∃ e, t = { s with enc := e } := by
  rcases encAccept_cases h with ⟨-, -, rfl⟩ | ⟨-, -, rfl⟩ | ⟨-, rfl⟩ <;> exact ⟨_, rfl⟩

theorem exec_dec_frame {i : Instr} (hi : ∀ v, i ≠ .encode v) (h : exec i s = .next t) :
    ∃ d, t = { s with dec := d } := by
  cases i with
  | encode v => exact absurd rfl (hi v)
  | decode bs => rcases decAccept_cases h with ⟨-, rfl⟩ | ⟨-, rfl⟩ <;> exact ⟨_, rfl⟩
  | parse bs => rcases decAccept_cases h with ⟨-, rfl⟩ | ⟨-, rfl⟩ <;> exact ⟨_, rfl⟩
  | cont g =>
    rcases execCont_cases h with ⟨-, rfl⟩ | ⟨-, -, rfl⟩ | ⟨-, -, -, rfl⟩ | ⟨-, -, -, rfl⟩ <;> exact ⟨_, rfl⟩
  | term g =>
    rcases execTerm_cases h with ⟨-, rfl⟩ | ⟨-, -, rfl⟩ | ⟨-, -, -, rfl⟩ | ⟨-, -, -, -, rfl⟩ | ⟨-, -, -, -, rfl⟩ <;>
      exact ⟨_, rfl⟩

/-- Settles O45: a turn of a unit and an instruction of a unit answer the same state but for that unit. -/
theorem unitsShareNoState : Obligations.UnitsShareNoState := by
  intro s t
  refine ⟨fun h => ?_, fun h => ?_, fun v h => ?_, fun i hi h => ?_⟩
  · rw [takeTurn_enc_next h]
    exact ⟨rfl, rfl, rfl⟩
  · obtain ⟨hmode, hin⟩ := Prod.ext_iff.1 (s.dec.command_scanTurn (p := s.build))
    obtain ⟨hbuf, hlen⟩ := Prod.ext_iff.1 hin
    rw [takeTurn_dec_next h]
    exact ⟨rfl, rfl, rfl, hbuf, hlen, hmode⟩
  · obtain ⟨e, rfl⟩ := exec_encode_frame h
    exact ⟨rfl, rfl, rfl⟩
  · obtain ⟨d, rfl⟩ := exec_dec_frame hi h
    exact ⟨rfl, rfl, rfl⟩

end Sys2Proof.Machine
end

section
/-! PROOFS. Turns and the steps of the machine: which turn is next, a command on the port, an idle unit, and reset
(10_state.md R21, R34, R36; 70_reset_and_hazards.md R170, R175). -/

namespace Sys2Proof.Machine

variable {s : State}

/-! ### The next turn -/

theorem nextTurn_of_cons {u : Turn} {us : List Turn} (h : s.host.turns = u :: us) : nextTurn s = u := by
  simp [nextTurn, h]

theorem nextTurn_of_nil (h : s.host.turns = []) :
    nextTurn s = if s.enc.state = .run then .enc else if s.dec.state = .run then .dec else .host := by
  simp [nextTurn, h, Enc.busy, Dec.busy]

theorem dropTurn_of_cons {u : Turn} {us : List Turn} (h : s.host.turns = u :: us) :
    dropTurn s = { s with host := { s.host with turns := us } } := by
  simp [dropTurn, h]

theorem dropTurn_of_nil (h : s.host.turns = []) : dropTurn s = s := by
  rw [dropTurn, h, List.tail_nil, ← h]

/-- Settles O9: the two cases of the list of turns. -/
theorem stepTakesTheNextTurn : Obligations.StepTakesTheNextTurn := by
  constructor
  · intro s u us h
    rw [step, nextTurn_of_cons h, dropTurn_of_cons h]
  · intro s h
    rw [step, nextTurn_of_nil h, dropTurn_of_nil h]

/-! ### The command on the port -/

theorem hostTurn_of_ready {c : Command} {cs : List Command} {i : Instr} (hc : s.host.cmds = c :: cs)
    (hi : decodeCommand s.build c = .ok i) (hr : cmdReady s c.op = true) : hostTurn s = exec i (dropCmd s) := by
  simp [hostTurn, hc, hi, hr]

theorem hostTurn_of_busy {c : Command} {cs : List Command} {i : Instr} (hc : s.host.cmds = c :: cs)
    (hi : decodeCommand s.build c = .ok i) (hr : cmdReady s c.op = false) : hostTurn s = .next s := by
  simp [hostTurn, hc, hi, hr]

/-- Settles O7: using up the turn changes neither the port nor what its unit answers, so the HOST's turn is the
accepted command, or nothing, at the state without the turn. -/
theorem stepRunsTheCommandOnThePort : Obligations.StepRunsTheCommandOnThePort := by
  intro s c cs i hn hc hi
  have hstep : step s = hostTurn (dropTurn s) := by rw [step, hn, takeTurn]
  constructor
  · intro hr
    rw [hstep, hostTurn_of_ready (s := dropTurn s) hc hi hr]
    simp [dropCmd, dropTurn, hc]
  · intro hr
    rw [hstep, hostTurn_of_busy (s := dropTurn s) hc hi hr]
    simp [dropTurn, ← hc]

/-! ### An idle unit -/

theorem scanWith_of_idle {g : Group} {k : State → Host.Outcome State Fault Refusal} (h : s.dec.state = .idle) :
    scanWith g k s = .next s := by
  simp [scanWith, h]

/-- Settles O28: every step of a unit begins with the test of its state. -/
theorem idleUnitsTakeNoStep : Obligations.IdleUnitsTakeNoStep := by
  intro s
  refine ⟨takeTurn_enc_of_idle, fun h => ⟨takeTurn_dec_of_idle h, fun g => ⟨?_, ?_⟩⟩⟩
  · rw [exec, execCont, scanWith_of_idle h]
  · rw [exec, execTerm, scanWith_of_idle h]

/-! ### Reset -/

/-- ENC meets its invariant at reset, in every build: OUT is empty and nothing runs. -/
theorem Enc.inv_reset (p : Params) : Enc.reset.Inv p where
  out_sequence := rfl
  rem_holds := holds_zero _
  len_le _ _ := Nat.zero_le _
  err_kind := .inl rfl
  fail_empty h := absurd rfl h
  run_status := nofun
  run_cont := nofun
  run_rem := nofun
  run_operand := nofun
  ok_result := nofun

/-- DEC meets its invariant at reset, in every build: every register is 0, IN is empty and nothing runs. -/
theorem Dec.inv_reset (p : Params) : Dec.reset.Inv p where
  in_sequence := rfl
  inLen_holds := holds_zero _
  idx_holds := holds_zero _
  acc_holds := holds_zero _
  value_holds := holds_zero _
  consumed_holds := holds_zero _
  err_kind := nofun
  err_trailing := nofun
  err_overflow := nofun
  run_status := nofun
  run_idx := nofun
  run_shift := nofun
  run_acc := nofun
  run_cont := nofun
  ok_result := nofun

/-- Settles O49: both units meet their invariants at reset. -/
theorem invariantAtReset : Obligations.InvariantAtReset :=
  ⟨fun p hp => ⟨hp, Enc.inv_reset p, Dec.inv_reset p⟩, by decide, rfl⟩

/-- Settles O52: the reset state and a reset turn differ only in DEC's counter of free values and in what the HOST
and the build are, none of which is a value of R34. -/
theorem resetValues : Obligations.ResetValues := by
  rintro s t (rfl | h)
  · exact ⟨rfl, rfl, rfl, rfl, rfl, rfl, rfl, rfl, rfl, fun _ => rfl⟩
  · obtain rfl : resetStep s = t := by simpa [takeTurn] using h
    exact ⟨rfl, rfl, rfl, rfl, rfl, rfl, rfl, rfl, rfl, fun _ => rfl⟩

end Sys2Proof.Machine
end

section
/-! PROOFS. What the HOST reads of a state of the invariant: the ports (10_state.md R35, 20_memory.md R54, R59) and
the outcomes (10_state.md R28, R29). -/

namespace Sys2Proof.Machine

variable {s : State} {p : Params}

/-! ### The ports -/

theorem outIndexExists_iff {i : Nat} : outIndexExists p i = true ↔ ∀ m, p.lMax = some m → i < m := by
  unfold outIndexExists
  cases p.lMax <;> simp

/-- A running ENC has room for its next byte: what is left of the operand, at least 1 after the first byte, stands
above the `7 * enc.len` bits already emitted, and the operand has `W` bits (40_encode.md R94). -/
theorem Enc.Inv.len_lt {e : Enc} (he : e.Inv p) (hp : p.wellFormed = true) (hs : e.state = .run) {m : Nat}
    (hm : p.lMax = some m) : e.len < m := by
  cases hw : p.valueBits with
  | inf => simp [lMax_of_inf hw] at hm
  | finite w =>
    obtain rfl : (w + 6) / 7 = m := by simpa [lMax_of_finite hw] using hm
    have hpos := valueBits_pos hp hw
    rcases Nat.eq_zero_or_pos e.len with h0 | h1
    · omega
    · have hop : groupsValue e.out.bytes + e.rem * 2 ^ (7 * e.len) < 2 ^ w := by
        simpa [hw, Width.holds] using he.run_operand hs
      have hle : 2 ^ (7 * e.len) ≤ e.rem * 2 ^ (7 * e.len) := Nat.le_mul_of_pos_left _ (he.run_rem hs h1)
      have hlt : 7 * e.len < w := (Nat.pow_lt_pow_iff_right (by decide)).1 (by omega : 2 ^ (7 * e.len) < 2 ^ w)
      omega

/-- Below its length the input has a byte (20_memory.md R54). -/
theorem Dec.Inv.memReadIn_of_lt {d : Dec} (hd : d.Inv p) {i : Nat} (hi : i < d.inLen) :
    ∃ b, memReadIn d i = some b := by
  obtain ⟨hseq, hlen⟩ := (Memory.isSequence_iff _ _).1 hd.in_sequence
  rw [memReadIn, if_pos hi, hseq, Memory.read_ofBytes]
  exact ⟨_, List.getElem?_eq_getElem (by omega)⟩

theorem readsIn_iff :
    readsIn s = true ↔ nextTurn s = .dec ∧ s.dec.state = .run ∧ s.dec.idx ≠ s.dec.inLen := by
  simp [readsIn, Dec.busy, and_assoc]

theorem writesOut_iff : writesOut s = true ↔ nextTurn s = .enc ∧ s.enc.state = .run := by
  simp [writesOut, Enc.busy]

/-- Settles O56: a running unit's index is inside its buffer, and ENC's step writes the byte on the port. -/
theorem portsStayInTheBuffers : Obligations.PortsStayInTheBuffers := by
  intro s hs
  constructor
  · intro hre
    obtain ⟨-, hrun, hne⟩ := readsIn_iff.1 hre
    have hlt : s.dec.idx < s.dec.inLen := lt_of_le_of_ne (hs.dec.run_idx hrun) hne
    exact ⟨hlt, hs.dec.memReadIn_of_lt hlt⟩
  · intro hwe
    obtain ⟨hturn, hrun⟩ := writesOut_iff.1 hwe
    have hroom (m : Nat) (hm : s.build.lMax = some m) : s.enc.len < m := hs.enc.len_lt hs.build hrun hm
    have hstep : step s = .next { dropTurn s with enc := s.enc.emitTurn } := by
      rw [step, hturn, takeTurn_enc_of_run (s := dropTurn s) hrun (outIndexExists_iff.2 hroom), dropTurn_enc]
    refine ⟨hroom, _, hstep, ?_⟩
    rw [Enc.emitTurn_out hrun]
    exact Memory.read_write_same _ _ _

/-! ### The outcomes -/

theorem encOutcome_of_not_done (h : s.enc.done = false) : encOutcome s = none := by
  simp [encOutcome, h]

theorem encOutcome_of_err {e : Err} (h : s.enc.done = true) (he : s.enc.err = some e) :
    encOutcome s = some (.error e) := by
  simp [encOutcome, h, he]

/-- OUT is a sequence of `enc.len` bytes, so a successful result is all of it. -/
theorem encOutcome_of_ok (hs : s.enc.Inv p) (h : s.enc.done = true) (he : s.enc.err = none) :
    encOutcome s = some (.bytes s.enc.out.bytes) := by
  simp [encOutcome, h, he, Enc.outResult, Enc.ok, Memory.readSeq_isSequence hs.out_sequence]

/-- A successful result is an output of `enc`, which is never empty. -/
theorem Enc.Inv.one_le_len {e : Enc} (he : e.Inv p) (hok : e.ok = true) : 1 ≤ e.len := by
  obtain ⟨v, -, hv⟩ := he.ok_result hok
  obtain ⟨-, hlen⟩ := (Memory.isSequence_iff _ _).1 he.out_sequence
  have hne : ¬ (enc v).length ≤ 0 := fun h => Nat.lt_irrefl 0 ((length_enc_le_iff v 0).1 h).1
  rw [hv] at hlen
  omega

theorem decOutcome_of_not_done (h : s.dec.done = false) : decOutcome s = none := by
  simp [decOutcome, h]

theorem decOutcome_of_err {e : Err} (h : s.dec.done = true) (he : s.dec.err = some e) :
    decOutcome s = some (.error e) := by
  simp [decOutcome, h, he]

theorem decOutcome_of_decode (h : s.dec.done = true) (he : s.dec.err = none) (hm : s.dec.mode = .decode) :
    decOutcome s = some (.value s.dec.value) := by
  simp [decOutcome, h, he, hm, Dec.valueResult, Dec.ok]

/-- The remainder of PARSE is all of the input from `dec.consumed` on (20_memory.md R60). -/
theorem Dec.Inv.remainderResult_eq {d : Dec} (hd : d.Inv p) (hok : d.ok = true) :
    d.remainderResult = some (d.inBuf.bytes.drop d.consumed) := by
  obtain ⟨hle, -⟩ := hd.ok_result hok
  obtain ⟨hseq, hlen⟩ := (Memory.isSequence_iff _ _).1 hd.in_sequence
  have hread := Memory.readSeq_ofBytes d.inBuf.bytes d.consumed (d.inLen - d.consumed) (by omega)
  rw [← hseq] at hread
  rw [Dec.remainderResult, if_pos hok, hread, List.take_of_length_le]
  rw [List.length_drop]
  omega

theorem decOutcome_of_parse (hs : s.dec.Inv p) (h : s.dec.done = true) (he : s.dec.err = none)
    (hm : s.dec.mode = .parse) :
    decOutcome s = some (.pair s.dec.value (s.dec.inBuf.bytes.drop s.dec.consumed)) := by
  have hok : s.dec.ok = true := by simp [Dec.ok, h, he]
  simp [decOutcome, h, he, hm, hs.remainderResult_eq hok]

/-- ENC's outcome in the three cases of its status (10_state.md R28). -/
theorem encOutcome_status (hs : s.enc.Inv p) :
    (encOutcome s).isSome = s.enc.done ∧
      ∀ e, encOutcome s = some (.error e) ↔ s.enc.done = true ∧ s.enc.err = some e := by
  cases h : s.enc.done with
  | false => simp [encOutcome_of_not_done h]
  | true =>
    cases he : s.enc.err with
    | none => simp [encOutcome_of_ok hs h he]
    | some x => simp [encOutcome_of_err h he]

/-- DEC's outcome in the four cases of its status and its mode (10_state.md R28). -/
theorem decOutcome_status (hs : s.dec.Inv p) :
    (decOutcome s).isSome = s.dec.done ∧
      ∀ e, decOutcome s = some (.error e) ↔ s.dec.done = true ∧ s.dec.err = some e := by
  cases h : s.dec.done with
  | false => simp [decOutcome_of_not_done h]
  | true =>
    cases he : s.dec.err with
    | some x => simp [decOutcome_of_err h he]
    | none =>
      cases hm : s.dec.mode with
      | decode => simp [decOutcome_of_decode h he hm]
      | parse => simp [decOutcome_of_parse hs h he hm]

/-- Settles O55: the outcome in each case of the status, with the results as the invariant gives them. -/
theorem outcomesAreReadFromTheStatus : Obligations.OutcomesAreReadFromTheStatus := by
  intro s hs
  obtain ⟨henc, hencErr⟩ := encOutcome_status hs.enc
  obtain ⟨hdec, hdecErr⟩ := decOutcome_status hs.dec
  refine ⟨⟨henc, hdec⟩, hencErr, hdecErr, fun h he => ?_, decOutcome_of_decode, decOutcome_of_parse hs.dec⟩
  obtain ⟨-, hlen⟩ := (Memory.isSequence_iff _ _).1 hs.enc.out_sequence
  have hok : s.enc.ok = true := by simp [Enc.ok, h, he]
  exact ⟨_, encOutcome_of_ok hs.enc h he, rfl, hlen, hs.enc.one_le_len hok⟩

end Sys2Proof.Machine
end

section
/-! PROOFS. Two runs of one command on units that held different things before: what the runs share after acceptance
(10_state.md R32, 70_reset_and_hazards.md R172). -/

namespace Sys2Proof.Machine

variable {s s' t t' : State} {p : Params}

/-- What every turn of two runs keeps between them, the runs keep. -/
theorem takeTurns_keeps_rel {R : State → State → Prop} {us : List Turn}
    (hk : ∀ u ∈ us, ∀ s s' t t' : State, R s s' → takeTurn u s = .next t → takeTurn u s' = .next t' → R t t')
    (h : R s s') (ht : takeTurns us s = .next t) (ht' : takeTurns us s' = .next t') : R t t' := by
  induction us generalizing s s' with
  | nil => rw [← takeTurns_nil.1 ht, ← takeTurns_nil.1 ht']; exact h
  | cons u us ih =>
    obtain ⟨r, h1, h2⟩ := (takeTurns_cons u us).1 ht
    obtain ⟨r', h1', h2'⟩ := (takeTurns_cons u us).1 ht'
    exact ih (fun x hx => hk x (.tail _ hx)) (hk u (.head _) s s' r r' h h1 h1') h2 h2'

/-! ### ENC -/

/-- Two ENCs that differ at most in `enc.rem`, and that only while no command runs: no acceptance of a negative
operand writes it (log 4). -/
structure Enc.Agree (e e' : Enc) : Prop where
  state : e.state = e'.state
  len : e.len = e'.len
  done : e.done = e'.done
  err : e.err = e'.err
  out : e.out = e'.out
  run_rem : e.state = .run → e.rem = e'.rem

theorem Enc.Agree.eq_of_run {e e' : Enc} (h : e.Agree e') (hs : e.state = .run) : e = e' := by
  obtain ⟨hstate, hlen, hdone, herr, hout, hrem⟩ := h
  cases e
  cases e'
  simp_all

theorem Enc.Agree.refl (e : Enc) : e.Agree e := ⟨rfl, rfl, rfl, rfl, rfl, fun _ => rfl⟩

theorem Enc.agree_fail (e e' : Enc) (x : Err) : (e.fail x).Agree (e'.fail x) :=
  ⟨rfl, rfl, rfl, rfl, rfl, nofun⟩

theorem Enc.agree_begin (e e' : Enc) (v : Nat) : (e.begin v).Agree (e'.begin v) :=
  ⟨rfl, rfl, rfl, rfl, rfl, fun _ => rfl⟩

theorem Enc.Agree.emitTurn {e e' : Enc} (h : e.Agree e') : e.emitTurn.Agree e'.emitTurn := by
  cases hs : e.state with
  | idle => rwa [emitTurn_of_idle hs, emitTurn_of_idle (h.state ▸ hs)]
  | run => rw [h.eq_of_run hs]; exact .refl _

theorem Enc.Agree.encOutcome_eq (h : s.enc.Agree s'.enc) : encOutcome s = encOutcome s' := by
  simp [encOutcome, Enc.outResult, Enc.ok, h.done, h.err, h.out, h.len]

theorem exec_encode_of_idle (v : Int) (hs : s.enc.state = .idle) :
    exec (.encode v) s =
      .next { s with enc := if v < 0 then s.enc.fail .invalidInput else s.enc.begin v.toNat } := by
  rw [exec, execEncode, encAccept, hs]
  dsimp only
  split <;> rfl

/-- Acceptance leaves nothing of what ENC held, but `enc.rem` after a negative operand. -/
theorem exec_encode_agree {v : Int} (hs : s.enc.state = .idle) (hs' : s'.enc.state = .idle)
    (h : exec (.encode v) s = .next t) (h' : exec (.encode v) s' = .next t') : t.enc.Agree t'.enc := by
  rw [exec_encode_of_idle v hs] at h
  rw [exec_encode_of_idle v hs'] at h'
  cases h
  cases h'
  dsimp only
  split
  · exact Enc.agree_fail _ _ _
  · exact Enc.agree_begin _ _ _

theorem takeTurn_enc_agree (ha : s.enc.Agree s'.enc) (h : takeTurn .enc s = .next t)
    (h' : takeTurn .enc s' = .next t') : t.enc.Agree t'.enc := by
  rw [takeTurn_enc_next h, takeTurn_enc_next h']
  exact ha.emitTurn

/-! ### DEC -/

/-- Two DECs of the same command and status. The index, the accumulator and the shift agree while it runs, the results
once it has succeeded; elsewhere they hold nothing to rely on (10_state.md R29, 60_exceptions.md R154). -/
structure Dec.Agree (d d' : Dec) : Prop where
  state : d.state = d'.state
  mode : d.mode = d'.mode
  inBuf : d.inBuf = d'.inBuf
  inLen : d.inLen = d'.inLen
  done : d.done = d'.done
  err : d.err = d'.err
  run_idx : d.state = .run → d.idx = d'.idx
  run_acc : d.state = .run → d.acc = d'.acc
  run_shift : d.state = .run → d.shift = d'.shift
  ok_value : d.ok = true → d.value = d'.value
  ok_consumed : d.ok = true → d.consumed = d'.consumed

/-- Acceptance leaves nothing of what DEC held but the results and the counter of free values. -/
theorem Dec.agree_begin (d d' : Dec) (m : DecMode) (bs : List Byte) : (d.begin m bs).Agree (d'.begin m bs) :=
  ⟨rfl, rfl, rfl, rfl, rfl, rfl, fun _ => rfl, fun _ => rfl, fun _ => rfl, nofun, nofun⟩

namespace Dec.Agree

variable {d d' : Dec}

theorem fail (h : d.Agree d') (x : Err) : (d.fail p x).Agree (d'.fail p x) :=
  ⟨rfl, h.mode, h.inBuf, h.inLen, rfl, rfl, nofun, nofun, nofun, nofun, nofun⟩

theorem take (h : d.Agree d') (g : Group) : (d.take g).Agree (d'.take g) where
  state := h.state
  mode := h.mode
  inBuf := h.inBuf
  inLen := h.inLen
  done := h.done
  err := h.err
  run_idx hs := by rw [take_idx, take_idx, h.run_idx hs]
  run_acc hs := by rw [take_acc, take_acc, h.run_acc hs, h.run_shift hs]
  run_shift := h.run_shift
  ok_value := h.ok_value
  ok_consumed := h.ok_consumed

theorem goOn (h : d.Agree d') : d.goOn.Agree d'.goOn :=
  { h with run_shift := fun hs => congrArg (· + 7) (h.run_shift hs) }

/-- The end of a command turns the accumulator and the index of the run into its results. -/
theorem finish (h : d.Agree d') (hs : d.state = .run) : d.finish.Agree d'.finish :=
  ⟨rfl, h.mode, h.inBuf, h.inLen, rfl, rfl, nofun, nofun, nofun, fun _ => h.run_acc hs, fun _ => h.run_idx hs⟩

theorem takeByte (h : d.Agree d') (hs : d.state = .run) (b : Byte) : (d.takeByte p b).Agree (d'.takeByte p b) := by
  unfold Dec.takeByte
  rw [← h.run_shift hs, ← h.mode, ← h.run_idx hs, ← h.inLen]
  split
  · exact h.fail _
  · split
    · exact (h.take _).goOn
    · split
      · exact (h.take _).fail _
      · exact (h.take _).finish hs

theorem scanTurn (h : d.Agree d') : (d.scanTurn p).Agree (d'.scanTurn p) := by
  unfold Dec.scanTurn
  rw [← h.state]
  split
  · exact h
  · next hs =>
    rw [← h.run_idx hs, ← h.inLen, ← h.inBuf]
    split
    · exact h.fail _
    · split
      · exact h.takeByte hs _
      · exact h

theorem decOutcome_eq (h : s.dec.Agree s'.dec) : decOutcome s = decOutcome s' := by
  cases hd : s.dec.done with
  | false => rw [decOutcome_of_not_done hd, decOutcome_of_not_done (h.done ▸ hd)]
  | true =>
    cases he : s.dec.err with
    | some e => rw [decOutcome_of_err hd he, decOutcome_of_err (h.done ▸ hd) (h.err ▸ he)]
    | none =>
      have hok : s.dec.ok = true := by simp [Dec.ok, hd, he]
      simp [decOutcome, Dec.valueResult, Dec.remainderResult, Dec.ok, ← h.done, ← h.err, ← h.mode, ← h.inBuf,
        ← h.inLen, ← h.ok_value hok, ← h.ok_consumed hok]

end Dec.Agree

theorem decAccept_of_idle (m : DecMode) (bs : List Byte) (hs : s.dec.state = .idle) :
    decAccept m bs s = .next { s with dec := s.dec.begin m bs } := by
  rw [decAccept, hs]

theorem decAccept_agree {m : DecMode} {bs : List Byte} (hs : s.dec.state = .idle) (hs' : s'.dec.state = .idle)
    (h : decAccept m bs s = .next t) (h' : decAccept m bs s' = .next t') : t.dec.Agree t'.dec := by
  rw [decAccept_of_idle m bs hs] at h
  rw [decAccept_of_idle m bs hs'] at h'
  cases h
  cases h'
  exact Dec.agree_begin _ _ m bs

theorem exec_dec_agree {i : Instr} (hi : ∃ bs, i = .decode bs ∨ i = .parse bs) (hs : s.dec.state = .idle)
    (hs' : s'.dec.state = .idle) (h : exec i s = .next t) (h' : exec i s' = .next t') : t.dec.Agree t'.dec := by
  obtain ⟨bs, rfl | rfl⟩ := hi
  · exact decAccept_agree hs hs' h h'
  · exact decAccept_agree hs hs' h h'

/-- The states of two runs of DEC: what DEC does depends on the build as well. -/
def AgreeOnDec (s s' : State) : Prop := s.build = s'.build ∧ s.dec.Agree s'.dec

theorem takeTurn_dec_agree (ha : AgreeOnDec s s') (h : takeTurn .dec s = .next t)
    (h' : takeTurn .dec s' = .next t') : AgreeOnDec t t' := by
  obtain ⟨hb, hd⟩ := ha
  rw [takeTurn_dec_next h, takeTurn_dec_next h', AgreeOnDec, ← hb]
  exact ⟨rfl, hd.scanTurn⟩

/-- Settles O48: after acceptance two units of one build agree, every turn of theirs keeps that, and units that agree
show the same outcome. -/
theorem outcomeDependsOnTheCommandAlone : Obligations.OutcomeDependsOnTheCommandAlone := by
  intro s s' n hb
  constructor
  · intro v hs hs' s₁ s₁' t t' h₁ h₁' ht ht'
    have hend : t.enc.Agree t'.enc := by
      refine takeTurns_keeps_rel (R := fun r r' => r.enc.Agree r'.enc) (fun u hu _ _ _ _ ha h h' => ?_)
        (exec_encode_agree hs hs' h₁ h₁') ht ht'
      obtain rfl := List.eq_of_mem_replicate hu
      exact takeTurn_enc_agree ha h h'
    exact hend.encOutcome_eq
  · intro i hi hs hs' s₁ s₁' t t' h₁ h₁' ht ht'
    have hne (v : Int) : i ≠ .encode v := by
      obtain ⟨bs, rfl | rfl⟩ := hi <;> nofun
    have hstart : AgreeOnDec s₁ s₁' := by
      refine ⟨?_, exec_dec_agree hi hs hs' h₁ h₁'⟩
      obtain ⟨d, rfl⟩ := exec_dec_frame hne h₁
      obtain ⟨d', rfl⟩ := exec_dec_frame hne h₁'
      exact hb
    have hend : AgreeOnDec t t' := by
      refine takeTurns_keeps_rel (fun u hu _ _ _ _ ha h h' => ?_) hstart ht ht'
      obtain rfl := List.eq_of_mem_replicate hu
      exact takeTurn_dec_agree ha h h'
    exact hend.2.decOutcome_eq

end Sys2Proof.Machine
end

section
/-! PROOFS. From a state of the invariant a turn of a unit always has its step: ENC has room for the byte it writes and
DEC has the byte it reads (20_memory.md R54, R59, R62). -/

namespace Sys2Proof.Machine

variable {s t : State}

theorem State.Inv.dropTurn (hs : s.Inv) : (dropTurn s).Inv := ⟨hs.build, hs.enc, hs.dec⟩

/-! ### The turns of the units -/

/-- ENC's turn is the ENC-emit step: OUT has room for the byte (20_memory.md R59). -/
theorem State.Inv.takeTurn_enc (hs : s.Inv) : takeTurn .enc s = .next { s with enc := s.enc.emitTurn } := by
  cases hrun : s.enc.state with
  | idle => rw [takeTurn_enc_of_idle hrun, Enc.emitTurn_of_idle hrun]
  | run => exact takeTurn_enc_of_run hrun (outIndexExists_iff.2 fun _ hm => hs.enc.len_lt hs.build hrun hm)

theorem takeTurn_dec_of_end (h : s.dec.state = .run) (hi : s.dec.idx = s.dec.inLen) :
    takeTurn .dec s = .next { s with dec := s.dec.scanTurn s.build } := by
  rw [Dec.scanTurn_of_end h hi]
  simp [takeTurn, decTurn, raise, h, hi]

theorem takeTurn_dec_of_byte {b : Byte} (h : s.dec.state = .run) (hi : s.dec.idx < s.dec.inLen)
    (hb : memReadIn s.dec s.dec.idx = some b) :
    takeTurn .dec s = .next { s with dec := s.dec.scanTurn s.build } := by
  have hread : s.dec.inBuf.read s.dec.idx = some b := by rwa [memReadIn, if_pos hi] at hb
  rw [Dec.scanTurn_of_byte h hi.ne hread, ← exec_decodeByte h hi]
  simp [takeTurn, decTurn, h, hi.ne, hb]

/-- DEC's turn is the DEC-scan step: its index is the end of the input, or IN has the byte (20_memory.md R54). -/
theorem State.Inv.takeTurn_dec (hs : s.Inv) :
    takeTurn .dec s = .next { s with dec := s.dec.scanTurn s.build } := by
  cases hrun : s.dec.state with
  | idle => rw [takeTurn_dec_of_idle hrun, Dec.scanTurn_of_idle hrun]
  | run =>
    rcases (hs.dec.run_idx hrun).eq_or_lt with hend | hlt
    · exact takeTurn_dec_of_end hrun hend
    · obtain ⟨b, hb⟩ := hs.dec.memReadIn_of_lt hlt
      exact takeTurn_dec_of_byte hrun hlt hb

/-! ### The HOST's turn -/

theorem noFault_of_next {o : Host.Outcome State Fault Refusal} (h : o = .next t) : NoFault o := by
  rw [h]
  trivial

/-- The accept step of ENC empties OUT and writes no byte, in every state (40_encode.md R91). -/
theorem noFault_encAccept (v : Int) (s : State) : NoFault (encAccept v s) := by
  unfold encAccept
  split
  · split <;> trivial
  · trivial

/-- The accept step of DEC reads no byte, in every state (41_decode.md R111). -/
theorem noFault_decAccept (m : DecMode) (bs : List Byte) (s : State) : NoFault (decAccept m bs s) := by
  unfold decAccept
  split <;> trivial

/-- A command that the decoder gives is an operation, so it runs as an accept step; bytes never come from the port. -/
theorem noFault_exec_of_decodeCommand {p : Params} {c : Command} {i : Instr} (h : decodeCommand p c = .ok i)
    (s : State) : NoFault (exec i s) := by
  obtain ⟨-, ⟨v, rfl, -⟩ | ⟨bs, rfl, -⟩ | ⟨bs, rfl, -⟩⟩ := decodeCommand_cases h
  · exact noFault_encAccept v s
  · exact noFault_decAccept .decode bs s
  · exact noFault_decAccept .parse bs s

/-- In every state: the HOST's turn is a refusal, an accept step, or nothing. -/
theorem noFault_hostTurn (s : State) : NoFault (hostTurn s) := by
  unfold hostTurn
  split
  · trivial
  · split
    · trivial
    · next hi =>
      split
      · exact noFault_exec_of_decodeCommand hi _
      · trivial

/-! ### Every turn -/

theorem State.Inv.noFault_takeTurn (hs : s.Inv) (u : Turn) : NoFault (takeTurn u s) := by
  cases u with
  | reset => trivial
  | host => exact noFault_hostTurn s
  | enc => exact noFault_of_next hs.takeTurn_enc
  | dec => exact noFault_of_next hs.takeTurn_dec

/-- Settles O51: a step is a turn at a state that still meets the invariant. -/
theorem noStepLeavesTheBuffers : Obligations.NoStepLeavesTheBuffers :=
  fun _ hs => hs.dropTurn.noFault_takeTurn _

end Sys2Proof.Machine
end

section
/-! PROOFS. The decoder and the encoder: each form of a command by its opcode, the operand and the input read back from
their encodings, and the bytes (30_encoding.md R70, R71, R78, R79, R83, R84). -/

namespace Sys2Proof

variable {p : Params}

/-! ### The opcode map -/

theorem decodeCommand_encode {c : Command} (h : c.op = opEncode) :
    decodeCommand p c = (decodeOperand p.valueBits c.v).map .encode := if_pos h

theorem decodeCommand_decode {c : Command} (h : c.op = opDecode) :
    decodeCommand p c = (decodeInput p.lenBits c.len c.buf).map .decode := by
  simp [decodeCommand, h, opDecode, opEncode]

theorem decodeCommand_parse {c : Command} (h : c.op = opParse) :
    decodeCommand p c = (decodeInput p.lenBits c.len c.buf).map .parse := by
  simp [decodeCommand, h, opParse, opDecode, opEncode]

theorem decodeCommand_reserved {c : Command} (h : c.op = 0b11) : decodeCommand p c = .error .reservedOpcode := by
  simp [decodeCommand, h, opParse, opDecode, opEncode]

theorem decodeCommand_input_error {c : Command} {e : DecodeError} (ho : c.op = opDecode ∨ c.op = opParse)
    (h : decodeInput p.lenBits c.len c.buf = .error e) : decodeCommand p c = .error e := by
  rcases ho with ho | ho
  · rw [decodeCommand_decode ho, h]
    rfl
  · rw [decodeCommand_parse ho, h]
    rfl

/-! ### Operands -/

/-- A two's-complement pattern reads back as its number (30_encoding.md R83): a negative operand is `2^(W+1)` less than
its pattern, whose top bit is then 1. -/
theorem decodeOperand_encodeOperand {n : Nat} {v : Int} (hlo : -(2 ^ n : Int) ≤ v) (hhi : v < 2 ^ n) :
    decodeOperand (.finite n) (encodeOperand (.finite n) v) = .ok v := by
  have hpow : (2 : Int) ^ (n + 1) = 2 ^ n * 2 := pow_succ 2 n
  rw [encodeOperand, decodeOperand, hpow]
  generalize (2 : Int) ^ n = m at hlo hhi
  by_cases hv : 0 ≤ v
  · have hx : v % (m * 2) = v := Int.emod_eq_of_lt hv (by omega)
    have hmod : v % m = v := Int.emod_eq_of_lt hv hhi
    have hdiv : v / m = 0 := Int.ediv_eq_zero_of_lt hv hhi
    rw [hx, if_pos ⟨hv, by omega⟩, hmod, hdiv, zero_mul, sub_zero]
  · have hx : v % (m * 2) = (v + m) + m * 1 := by
      rw [← Int.add_emod_right, Int.emod_eq_of_lt (by omega) (by omega)]
      omega
    have hmod : ((v + m) + m * 1) % m = v + m := by
      rw [Int.add_mul_emod_self_left, Int.emod_eq_of_lt (by omega) (by omega)]
    have hdiv : ((v + m) + m * 1) / m = 1 := by
      rw [Int.add_mul_ediv_left _ _ (by omega), Int.ediv_eq_zero_of_lt (by omega) (by omega), zero_add]
    rw [hx, if_pos ⟨by omega, by omega⟩, hmod, hdiv]
    congr 1
    omega

theorem decodeOperand_too_wide {n : Nat} {x : Int} (h : x < 0 ∨ (2 ^ (n + 1) : Int) ≤ x) :
    decodeOperand (.finite n) x = .error .operandTooWide :=
  if_neg fun hx => h.elim (not_lt.2 hx.1) (not_le.2 hx.2)

@[simp] theorem decodeOperand_zero (w : Width) : decodeOperand w 0 = .ok 0 := by
  cases w with
  | inf => rfl
  | finite n => simp [decodeOperand]

/-! ### Inputs -/

theorem decodeInput_of_holds {w : Width} {len : Nat} {buf : List Byte} (hw : w.holds len = true)
    (hb : len ≤ buf.length) : decodeInput w len buf = .ok (buf.take len) := by
  simp [decodeInput, hw, Nat.not_lt.2 hb]

theorem decodeInput_length {w : Width} {bs : List Byte} (hw : w.holds bs.length = true) :
    decodeInput w bs.length bs = .ok bs := by
  rw [decodeInput_of_holds hw le_rfl, List.take_length]

theorem decodeInput_too_long {w : Width} {len : Nat} {buf : List Byte} (hw : w.holds len = false) :
    decodeInput w len buf = .error .lengthTooWide := if_pos hw

theorem decodeInput_short_buffer {w : Width} {len : Nat} {buf : List Byte} (hw : w.holds len = true)
    (hb : buf.length < len) : decodeInput w len buf = .error .bufferTooShort := by
  simp [decodeInput, hw, hb]

/-! ### Bytes -/

theorem decodeByte_of_cont {b : Byte} (h : contBit b = true) : decodeByte b = .cont (groupOf b) := if_pos h

theorem decodeByte_of_term {b : Byte} (h : contBit b = false) : decodeByte b = .term (groupOf b) := by
  simp [decodeByte, h]

/-! ### The statements about the wires -/

/-- Settles O1: the command of each opcode gives back its operand, and a byte its class and group. -/
theorem decodeOfEncodeIsTheInstruction : Obligations.DecodeOfEncodeIsTheInstruction := by
  intro p i hi
  cases i with
  | encode v =>
    have hv : decodeOperand p.valueBits (encodeOperand p.valueBits v) = .ok v := by
      cases hw : p.valueBits with
      | inf => rfl
      | finite w =>
        simp only [Instr.wellFormed, hw, Bool.and_eq_true, decide_eq_true_eq] at hi
        obtain ⟨hlo, hhi⟩ := hi
        exact decodeOperand_encodeOperand hlo hhi
    rw [encode, decode, decodeCommand_encode rfl, hv]
    rfl
  | decode bs =>
    rw [encode, decode, decodeCommand_decode rfl, decodeInput_length hi]
    rfl
  | parse bs =>
    rw [encode, decode, decodeCommand_parse rfl, decodeInput_length hi]
    rfl
  | cont g => rw [encode, decode, decodeByte_of_cont (contBit_byteOf ..), groupOf_byteOf]
  | term g => rw [encode, decode, decodeByte_of_term (contBit_byteOf ..), groupOf_byteOf]

/-- Settles O2: the continuation bit has weight 128 and says which class the byte is of. -/
theorem everyByteIsContOrTerm : Obligations.EveryByteIsContOrTerm := by
  intro p b
  have hback : byteOf (contBit b) (groupOf b) = b := byteOf_contBit_groupOf b
  have hgroup : (groupOf b).toNat = b.toNat % 128 := groupOf_toNat b
  have hlt : b.toNat < 256 := b.isLt
  have hbit : contBit b = true ↔ 128 ≤ b.toNat := contBit_iff b
  cases hc : contBit b with
  | true =>
    have hge : 128 ≤ b.toNat := hbit.1 hc
    rw [hc] at hback
    rw [decodeByte_of_cont hc, encode, hback]
    exact ⟨rfl, .inl ⟨hge, _, rfl, by omega⟩⟩
  | false =>
    have hsmall : b.toNat < 128 := by rw [← Nat.not_le, ← hbit, hc]; decide
    rw [hc] at hback
    rw [decodeByte_of_term hc, encode, hback]
    exact ⟨rfl, .inr ⟨hsmall, _, rfl, by omega⟩⟩

theorem decode_of_encode_eq {i : Instr} {x : Wire} (hi : i.wellFormed p = true) (hx : encode p i = x) :
    decode p x = .ok i := hx ▸ decodeOfEncodeIsTheInstruction p i hi

/-- Settles O3: each word is the encoding of the well-formed instruction that it stands for. -/
theorem specWordsDecode : Obligations.SpecWordsDecode :=
  ⟨decode_of_encode_eq (by decide) (by decide), decode_of_encode_eq (by decide) (by decide),
    decode_of_encode_eq (by decide) (by decide), decode_of_encode_eq (by decide) (by decide),
    decode_of_encode_eq (by decide) (by decide), decode_of_encode_eq (by decide) (by decide)⟩

/-- Settles O4: the instruction of each opcode is a function of the fields that the opcode uses. -/
theorem unusedCommandFieldsAreIgnored : Obligations.UnusedCommandFieldsAreIgnored := by
  intro p c c' hop
  refine ⟨fun ho hv => ?_, fun ho hl hb => ?_⟩
  · rw [decodeCommand_encode ho, decodeCommand_encode (hop ▸ ho), hv]
  · rcases ho with ho | ho
    · rw [decodeCommand_decode ho, decodeCommand_decode (hop ▸ ho), hl, hb]
    · rw [decodeCommand_parse ho, decodeCommand_parse (hop ▸ ho), hl, hb]

end Sys2Proof
end

section
/-! PROOFS. The command port: when it is ready, and the refusal of what carries no command (30_encoding.md R79, R80,
R83, R84; 70_reset_and_hazards.md R173). -/

namespace Sys2Proof.Machine

variable {s : State}

@[simp] theorem cmdReady_reserved (s : State) : cmdReady s 0b11 = false := rfl

/-- Settles O57: the two units by their opcodes, and the opcode that no unit has. -/
theorem cmdReadyFollowsTheOpcode : Obligations.CmdReadyFollowsTheOpcode :=
  fun s => ⟨cmdReady_encode rfl, cmdReady_dec (.inl rfl), cmdReady_dec (.inr rfl), cmdReady_reserved s⟩

theorem hostTurn_of_error {c : Command} {cs : List Command} {e : DecodeError} (hc : s.host.cmds = c :: cs)
    (he : decodeCommand s.build c = .error e) : hostTurn s = .refused (refusalOf e) := by
  simp [hostTurn, hc, he]

theorem step_of_error {c : Command} {cs : List Command} {e : DecodeError} (hn : nextTurn s = .host)
    (hc : s.host.cmds = c :: cs) (he : decodeCommand s.build c = .error e) :
    step s = .refused (refusalOf e) := by
  rw [step, hn, takeTurn]
  exact hostTurn_of_error (s := dropTurn s) hc he

/-- Settles O5: the decoder gives no instruction for the opcode. -/
theorem reservedOpcodeIsRefused : Obligations.ReservedOpcodeIsRefused := by
  intro s c cs hn hc ho
  exact ⟨by rw [ho, cmdReady_reserved], step_of_error hn hc (decodeCommand_reserved ho)⟩

/-- Settles O6: each is an error of the decoder, of the operand or of the input. -/
theorem unpresentableCommandsAreRefused : Obligations.UnpresentableCommandsAreRefused := by
  intro s c cs hn hc
  refine ⟨fun w ho hw hv => ?_, fun ho hl => ?_, fun ho hl hb => ?_⟩
  · have he : decodeCommand s.build c = .error .operandTooWide := by
      rw [decodeCommand_encode ho, hw, decodeOperand_too_wide hv]
      rfl
    exact step_of_error hn hc he
  · exact step_of_error hn hc (decodeCommand_input_error ho (decodeInput_too_long hl))
  · exact step_of_error hn hc (decodeCommand_input_error ho (decodeInput_short_buffer hl hb))

end Sys2Proof.Machine
end

section
/-! PROOFS. A placed opcode-table word (log 15): what its placing leaves alone, and the step that runs it
(30_encoding.md R79, R85; 10_state.md R24). -/

namespace Sys2Proof.Machine

variable {s : State}

/-! ### Table words -/

/-- A command without operand fields is the same instruction in every build. -/
theorem decodeCommand_zero_fields (p p' : Params) (op : BitVec 2) :
    decodeCommand p { op := op, v := 0, len := 0, buf := [] } =
      decodeCommand p' { op := op, v := 0, len := 0, buf := [] } := by
  have hin (w : Width) : decodeInput w 0 [] = .ok [] := decodeInput_length (bs := []) (holds_zero w)
  simp only [decodeCommand, decodeOperand_zero, hin]

theorem tableWire_cmd {nbits w : Nat} {c : Command} (h : tableWire nbits w = some (.cmd c)) :
    ∃ op, c = { op := op, v := 0, len := 0, buf := [] } := by
  unfold tableWire at h
  split at h
  · cases h
    exact ⟨_, rfl⟩
  · split at h <;> cases h

theorem decode_of_tableWire {nbits w : Nat} {i : Instr} {x : Wire} (h : decodeTableWord nbits w = some i)
    (hx : tableWire nbits w = some x) : decode .default x = .ok i := by
  rw [decodeTableWord, hx] at h
  cases hd : decode .default x with
  | error e => simp [hd, Except.toOption] at h
  | ok j =>
    simp only [hd, Except.toOption, Option.some.injEq] at h
    rw [h]

theorem tableWire_ne_none {nbits w : Nat} {i : Instr} (h : decodeTableWord nbits w = some i) :
    tableWire nbits w ≠ none := by
  intro hx
  simp [decodeTableWord, hx] at h

/-! ### A placed command -/

/-- A command that decodes addresses a unit (30_encoding.md R79). -/
theorem opUnit_of_decodeCommand {p : Params} {c : Command} {i : Instr} (h : decodeCommand p c = .ok i) :
    ∃ u, opUnit c.op = some u := by
  obtain ⟨-, ⟨_, -, ho⟩ | ⟨_, -, ho⟩ | ⟨_, -, ho⟩⟩ := decodeCommand_cases h
  · exact ⟨_, opUnit_encode ho⟩
  · exact ⟨_, opUnit_dec (.inl ho)⟩
  · exact ⟨_, opUnit_dec (.inr ho)⟩

/-- Placing a command leaves its unit idle. -/
theorem cmdReady_placeCommand {c : Command} {u : Agent} (h : opUnit c.op = some u) :
    cmdReady (placeCommand c s) c.op = true := by
  cases u <;> simp [cmdReady, h, unitIdle, placeCommand]

theorem step_placeCommand {c : Command} {i : Instr} (h : decodeCommand s.build c = .ok i) :
    step (placeCommand c s) = exec i (dropCmd (dropTurn (placeCommand c s))) := by
  obtain ⟨u, hu⟩ := opUnit_of_decodeCommand h
  exact hostTurn_of_ready (s := dropTurn (placeCommand c s)) rfl h (cmdReady_placeCommand hu)

/-! ### A placed byte -/

/-- DEC reads the placed byte next: an idle DEC as its whole input, a running one in place of the byte at its index. -/
theorem placeByte_dec (b : Byte) (s : State) :
    (placeByte b s).dec.state = .run ∧ (placeByte b s).dec.idx < (placeByte b s).dec.inLen ∧
      Memory.read (placeByte b s).dec.inBuf (placeByte b s).dec.idx = some b := by
  cases hs : s.dec.state with
  | idle => simp [placeByte, hs]
  | run => simp [placeByte, hs, Memory.read_write_same]

theorem decTurn_of_byte {b : Byte} (hs : s.dec.state = .run) (hi : s.dec.idx < s.dec.inLen)
    (hb : Memory.read s.dec.inBuf s.dec.idx = some b) : decTurn s = exec (decodeByte b) s := by
  simp [decTurn, memReadIn, hs, hi, hi.ne, hb]

theorem step_placeByte (b : Byte) (s : State) :
    step (placeByte b s) = exec (decodeByte b) (dropTurn (placeByte b s)) := by
  obtain ⟨hs, hi, hb⟩ := placeByte_dec b s
  exact decTurn_of_byte (s := dropTurn (placeByte b s)) hs hi hb

/-- Settles O10: the placed turn is the next one, and its agent finds the placed command or byte. -/
theorem fetchWordRunsNext : Obligations.FetchWordRunsNext := by
  intro s nbits w i hw
  refine ⟨fun c hc => ⟨_, rfl, ?_, rfl, rfl, ?_, fun h => if_neg h, fun h => if_neg h⟩,
    fun b hb => ⟨_, rfl, ?_, rfl, rfl, rfl, ?_⟩, tableWire_ne_none hw⟩
  · obtain ⟨op, rfl⟩ := tableWire_cmd hc
    have hi := decode_of_tableWire hw hc
    rw [decode, decodeCommand_zero_fields _ s.build] at hi
    rw [State.withFetchWord, hc]
    exact step_placeCommand hi
  · obtain ⟨u, hu⟩ := opUnit_of_decodeCommand (decode_of_tableWire hw hc)
    exact cmdReady_placeCommand (s := s) hu
  · have hi : decodeByte b = i := Except.ok.inj (decode_of_tableWire hw hb)
    rw [State.withFetchWord, hb, ← hi]
    exact step_placeByte b s
  · obtain ⟨hrun, hidx, hread⟩ := placeByte_dec b s
    exact ⟨hrun, hidx, hread, (Except.ok.inj (decode_of_tableWire hw hb)).symm⟩

end Sys2Proof.Machine
end

section
/-! PROOFS. Varints, overlong ones too: DECODE gives the value of the groups, and `enc` of that value is the varint
unless a last byte 0 follows other bytes (30_encoding.md R72 to R75, 41_decode.md R122). -/

namespace Sys2Proof.Machine

variable {b : Byte} {bs : List Byte}

/-! ### The form of a varint -/

/-- A varint is its TERM byte, or a CONT byte before a varint (30_encoding.md R72). -/
theorem isVarint_cons : isVarint (b :: bs) = true ↔
    contBit b = false ∧ bs = [] ∨ contBit b = true ∧ isVarint bs = true := by
  cases bs with
  | nil => simp [isVarint]
  | cons c cs => simp [isVarint]

theorem ne_nil_of_isVarint (h : isVarint bs = true) : bs ≠ [] := by
  rintro rfl
  cases h

/-! ### The scan of a varint -/

/-- No group of a sequence exceeds the value of the whole at its position. -/
theorem placeGroup_le_groupsValue (pre : List Byte) (b : Byte) (bs : List Byte) :
    placeGroup (groupOf b) (7 * pre.length) ≤ groupsValue (pre ++ b :: bs) := by
  rw [placeGroup_eq, groupsValue_append, groupsValue_cons, Nat.add_mul]
  omega

/-- The loop reads a varint to its end where the value of all groups is of the width (41_decode.md R110). -/
theorem scanLoop_isVarint {w : Width} (pre : List Byte) (hv : isVarint bs = true)
    (hw : w.holds (groupsValue (pre ++ bs)) = true) :
    scanLoop w (groupsValue pre) (7 * pre.length) pre.length bs =
      .ok (groupsValue (pre ++ bs), (pre ++ bs).length) := by
  induction bs generalizing pre with
  | nil => cases hv
  | cons b bs ih =>
    have hb : w.holds (placeGroup (groupOf b) (7 * pre.length)) = true :=
      holds_mono (placeGroup_le_groupsValue pre b bs) hw
    rw [scanLoop_cons, if_neg (by simp [hb])]
    rcases isVarint_cons.1 hv with ⟨hc, rfl⟩ | ⟨hc, hbs⟩
    · rw [if_neg (by simp [hc])]
    · rw [List.append_cons pre b bs] at hw ⊢
      rw [if_pos hc, ih _ hbs hw]

theorem scan_isVarint {w : Width} (hv : isVarint bs = true) (hw : w.holds (groupsValue bs) = true) :
    scan w bs = .ok (groupsValue bs, bs.length) := scanLoop_isVarint [] hv hw

theorem decodeFn_isVarint {p : Params} (hv : isVarint bs = true) (hw : p.valueBits.holds (groupsValue bs) = true) :
    decodeFn p bs = .value (groupsValue bs) := by
  simp [decodeFn, scan_isVarint hv hw]

/-! ### `enc` of the value of a varint -/

theorem enc_ne_nil (v : Nat) : enc v ≠ [] := by
  by_cases hv : v < 128
  · simp [enc_of_lt hv]
  · simp [enc_of_ge (Nat.le_of_not_lt hv)]

/-- A TERM byte is what `enc` gives for its group. -/
theorem enc_group (h : contBit b = false) : enc (groupOf b).toNat = [b] := by
  have hback : byteOf false (groupOf b) = b := h ▸ byteOf_contBit_groupOf b
  have hlow : lowGroup (groupOf b).toNat = groupOf b := by
    apply BitVec.eq_of_toNat_eq
    rw [lowGroup_toNat, Nat.mod_eq_of_lt (groupOf b).isLt]
  rw [enc_of_lt (groupOf b).isLt, hlow, hback]

/-- A CONT byte is what `enc` gives first for its group below groups that are not all zero. -/
theorem enc_group_add {n : Nat} (h : contBit b = true) (hn : 0 < n) :
    enc ((groupOf b).toNat + 128 * n) = b :: enc n := by
  have hg : (groupOf b).toNat < 128 := (groupOf b).isLt
  have hback : byteOf true (groupOf b) = b := h ▸ byteOf_contBit_groupOf b
  have hlow : lowGroup ((groupOf b).toNat + 128 * n) = groupOf b := by
    apply BitVec.eq_of_toNat_eq
    rw [lowGroup_toNat]
    omega
  have hdrop : dropGroup ((groupOf b).toNat + 128 * n) = n := by
    rw [dropGroup_eq]
    omega
  rw [enc_of_ge (by omega), hlow, hdrop, hback]

/-- An output of `enc` ends in the byte 0 only for the value 0 (30_encoding.md R74). -/
theorem eq_zero_of_getLast?_enc {v : Nat} (h : (enc v).getLast? = some 0) : v = 0 := by
  induction v using enc_induction with
  | base v hv =>
    rw [enc_of_lt hv, List.getLast?_singleton, Option.some.injEq] at h
    have hlow : (lowGroup v).toNat = 0 := by
      rw [← groupOf_byteOf false (lowGroup v), h]
      rfl
    rwa [lowGroup_toNat, Nat.mod_eq_of_lt hv] at hlow
  | next v hv ih =>
    rw [enc_of_ge hv, List.getLast?_cons_of_ne_nil (enc_ne_nil _)] at h
    have hzero : dropGroup v = 0 := ih h
    rw [dropGroup_eq] at hzero
    omega

/-- A varint that is a single byte or does not end in the byte 0 is what `enc` gives for its value. -/
theorem enc_groupsValue (hv : isVarint bs = true) (hl : ¬ (2 ≤ bs.length ∧ bs.getLast? = some 0)) :
    enc (groupsValue bs) = bs := by
  induction bs with
  | nil => cases hv
  | cons b bs ih =>
    rw [groupsValue_cons]
    rcases isVarint_cons.1 hv with ⟨hc, rfl⟩ | ⟨hc, hbs⟩
    · exact enc_group hc
    · have hne : bs ≠ [] := ne_nil_of_isVarint hbs
      have hlast : bs.getLast? ≠ some 0 := by
        intro h
        refine hl ⟨?_, by rwa [List.getLast?_cons_of_ne_nil hne]⟩
        have := List.length_pos_of_ne_nil hne
        rw [List.length_cons]
        omega
      have hrest : enc (groupsValue bs) = bs := ih hbs fun h => hlast h.2
      have hpos : 0 < groupsValue bs := by
        refine Nat.pos_of_ne_zero fun h => hlast ?_
        rw [← hrest, h]
        rfl
      rw [enc_group_add hc hpos, hrest]

/-- Settles O42: an overlong varint ends in the byte 0, and of the outputs of `enc` only the single byte for 0 does. -/
theorem overlongVarintsAreAccepted : Obligations.OverlongVarintsAreAccepted := by
  intro p s hv hw
  refine ⟨decodeFn_isVarint hv hw, fun henc ⟨hlen, hlast⟩ => ?_, enc_groupsValue hv⟩
  have hzero : groupsValue s = 0 := eq_zero_of_getLast?_enc (by rwa [henc])
  have hone : (enc 0).length = 1 := rfl
  rw [← henc, hzero, hone] at hlen
  omega

end Sys2Proof.Machine
end

section
/-! PROOFS. The bytes of `enc v`: they are a varint, their groups are those of `v`, and no varint of the value is
shorter (40_encode.md R95 to R97, 30_encoding.md R72 to R74). -/

namespace Sys2Proof.Machine

/-! ### The value and the form of `enc v` -/

/-- The value is recovered from the bytes (40_encode.md R97). -/
@[simp] theorem groupsValue_enc (v : Nat) : groupsValue (enc v) = v := by
  induction v using enc_induction with
  | base v hv => simp [enc_of_lt hv, groupsValue_cons, Nat.mod_eq_of_lt hv]
  | next v hv ih =>
    rw [enc_of_ge hv, groupsValue_cons, ih, groupOf_byteOf, Nat.add_comm, dropGroup_lowGroup]

theorem isVarint_enc (v : Nat) : isVarint (enc v) = true := by
  induction v using enc_induction with
  | base v hv => simp [enc_of_lt hv, isVarint]
  | next v hv ih =>
    rw [enc_of_ge hv, isVarint_cons]
    exact .inr ⟨contBit_byteOf .., ih⟩

/-- The byte of index `i` carries the group of weight `2^(7i)` of the value (30_encoding.md R74). -/
theorem groupOf_getElem_enc (v i : Nat) (h : i < (enc v).length) :
    groupOf (enc v)[i] = lowGroup (v >>> (7 * i)) := by
  induction v using enc_induction generalizing i with
  | base v hv =>
    simp only [enc_of_lt hv, List.length_singleton, Nat.lt_one_iff] at h
    simp [enc_of_lt hv, h]
  | next v hv ih =>
    simp only [enc_of_ge hv, List.length_cons] at h
    cases i with
    | zero => simp [enc_of_ge hv]
    | succ i =>
      simp only [enc_of_ge hv, List.getElem_cons_succ]
      rw [ih i (by omega), dropGroup, ← Nat.shiftRight_add, Nat.mul_succ, Nat.add_comm]

/-! ### The continuation bits of a varint -/

/-- A varint goes on at every byte but its last (30_encoding.md R72). -/
theorem contBit_getElem_of_isVarint {bs : List Byte} (hv : isVarint bs = true) (i : Nat) (h : i < bs.length) :
    contBit bs[i] = decide (i + 1 < bs.length) := by
  induction bs generalizing i with
  | nil => cases hv
  | cons b bs ih =>
    rcases isVarint_cons.1 hv with ⟨hc, rfl⟩ | ⟨hc, hbs⟩
    · obtain rfl : i = 0 := by simpa using h
      simpa using hc
    · cases i with
      | zero => simp [hc, List.length_pos_of_ne_nil (ne_nil_of_isVarint hbs)]
      | succ i => simp [ih hbs i (by simpa using h)]

/-- The bytes of a varint before others of its bytes are CONT bytes. -/
theorem contBit_of_isVarint_append {bs cs : List Byte} (hv : isVarint (bs ++ cs) = true) (hc : cs ≠ []) :
    ∀ b ∈ bs, contBit b = true := by
  intro b hb
  obtain ⟨i, hi, rfl⟩ := List.getElem_of_mem hb
  have hcs : 0 < cs.length := List.length_pos_of_ne_nil hc
  have hlen : i + 1 < (bs ++ cs).length := by
    rw [List.length_append]
    omega
  have hget : bs[i] = (bs ++ cs)[i] := (List.getElem_append_left hi).symm
  rw [hget, contBit_getElem_of_isVarint hv]
  exact decide_eq_true hlen

/-- CONT bytes and one TERM byte are a varint (30_encoding.md R72). -/
theorem isVarint_snoc {bs : List Byte} {b : Byte} (hbs : ∀ x ∈ bs, contBit x = true) (hb : contBit b = false) :
    isVarint (bs ++ [b]) = true := by
  induction bs with
  | nil => simp [isVarint, hb]
  | cons c bs ih =>
    obtain ⟨hc, hrest⟩ := List.forall_mem_cons.1 hbs
    exact isVarint_cons.2 (.inr ⟨hc, ih hrest⟩)

/-- Settles O16: `enc v` is a varint, and a varint has its one TERM byte at the end. -/
theorem continuationBitsOfEnc : Obligations.ContinuationBitsOfEnc :=
  fun v => ⟨isVarint_enc v, contBit_getElem_of_isVarint (isVarint_enc v)⟩

/-- Settles O18: `groupsValue` is a left inverse of `enc`. -/
theorem encIsInjective : Obligations.EncIsInjective :=
  ⟨groupsValue_enc, fun _ _ h => Function.LeftInverse.injective groupsValue_enc h⟩

/-! ### CONT bytes before an output of `enc` -/

/-- CONT bytes before an output of `enc` are what `enc` gives first for a value with their groups below: each stands
below groups that are not all zero, or nothing stands before the output. -/
theorem enc_groupsValue_append {bs : List Byte} {n : Nat} (hc : ∀ b ∈ bs, contBit b = true)
    (hn : bs ≠ [] → 1 ≤ n) : bs ++ enc n = enc (groupsValue bs + n * 2 ^ (7 * bs.length)) := by
  induction bs with
  | nil => simp
  | cons b bs ih =>
    obtain ⟨hb, hbs⟩ := List.forall_mem_cons.1 hc
    have hpos : 1 ≤ n := hn (List.cons_ne_nil b bs)
    have hrest : 0 < groupsValue bs + n * 2 ^ (7 * bs.length) := by positivity
    have hvalue : groupsValue (b :: bs) + n * 2 ^ (7 * (b :: bs).length) =
        (groupOf b).toNat + 128 * (groupsValue bs + n * 2 ^ (7 * bs.length)) := by
      rw [groupsValue_cons, List.length_cons, Nat.mul_succ, Nat.pow_add]
      ring
    rw [hvalue, enc_group_add hb hrest, ← ih hbs fun _ => hpos, List.cons_append]

/-! ### The length -/

/-- `v` is written in `k` bits iff it is below `2^k` (00_scope.md R14). -/
theorem bitLength_le_iff (v k : Nat) : bitLength v ≤ k ↔ v < 2 ^ k := by
  unfold bitLength
  split
  · next h => simp [h]
  · next h => rw [Nat.succ_le_iff, Nat.log2_lt h]

/-- Both lengths are at most `k` for the same `k`. -/
theorem length_enc (v : Nat) : (enc v).length = varintLength v := by
  refine eq_of_forall_ge_iff fun k => ?_
  have hbits : bitLength v ≤ 7 * k ↔ v < 2 ^ (7 * k) := bitLength_le_iff v (7 * k)
  rw [length_enc_le_iff, ← hbits, varintLength]
  omega

theorem length_enc_eq_of_range {v k : Nat} (hk : 2 ≤ k) (hlo : 2 ^ (7 * (k - 1)) ≤ v) (hhi : v < 2 ^ (7 * k)) :
    (enc v).length = k := by
  have hle : (enc v).length ≤ k := (length_enc_le_iff v k).2 ⟨by omega, hhi⟩
  have hnot : ¬ (enc v).length ≤ k - 1 := fun h => Nat.not_lt.2 hlo ((length_enc_le_iff v _).1 h).2
  omega

/-! ### Minimality -/

/-- The canonical varint has the length, the continuation bits and the groups of `enc v` (30_encoding.md R74). -/
theorem enc_eq_canonicalVarint (v : Nat) : enc v = canonicalVarint v := by
  apply List.ext_getElem
  · rw [length_enc, canonicalVarint, List.length_map, List.length_range]
  · intro i h _
    rw [← byteOf_contBit_groupOf (enc v)[i], groupOf_getElem_enc, contBit_getElem_of_isVarint (isVarint_enc v),
      length_enc]
    simp [canonicalVarint]

/-- Every varint has a byte at least and room for its value. -/
theorem length_enc_groupsValue_le {bs : List Byte} (hv : isVarint bs = true) :
    (enc (groupsValue bs)).length ≤ bs.length :=
  (length_enc_le_iff _ _).2 ⟨List.length_pos_of_ne_nil (ne_nil_of_isVarint hv), groupsValue_lt bs⟩

/-- An overlong varint is not as short as `enc` of its value: without its last byte 0 the value is the same. -/
theorem length_enc_lt_of_overlong {bs : List Byte} (hlen : 2 ≤ bs.length) (hlast : bs.getLast? = some 0) :
    (enc (groupsValue bs)).length < bs.length := by
  obtain ⟨pre, rfl⟩ := List.getLast?_eq_some_iff.1 hlast
  have hvalue : groupsValue (pre ++ [0]) = groupsValue pre := by
    rw [groupsValue_snoc, show (groupOf 0).toNat = 0 from rfl, Nat.zero_mul, Nat.add_zero]
  rw [List.length_append, List.length_singleton] at hlen ⊢
  rw [hvalue, Nat.lt_succ_iff]
  exact (length_enc_le_iff _ _).2 ⟨by omega, groupsValue_lt pre⟩

/-- Settles O17: a varint as short as `enc` of its value is not overlong, so it is `enc` of its value. -/
theorem encIsMinimal : Obligations.EncIsMinimal := by
  intro v
  refine ⟨length_enc v, fun hpos hlast => hpos.ne' (eq_zero_of_getLast?_enc hlast), enc_eq_canonicalVarint v, ?_,
    fun hv => by rw [enc_of_lt hv, List.length_singleton], fun k => length_enc_eq_of_range⟩
  rintro bs hbs rfl
  refine ⟨length_enc_groupsValue_le hbs, fun hlen => (enc_groupsValue hbs ?_).symm⟩
  rintro ⟨htwo, hlast⟩
  exact (length_enc_lt_of_overlong htwo hlast).ne' hlen

end Sys2Proof.Machine
end

section
/-! PROOFS. The two steps of ENC, acceptance and emission, with what they leave alone (40_encode.md R91, R92). -/

namespace Sys2Proof.Machine

/-- Settles O11: acceptance is ENC's part of error entry for a negative operand, and the beginning of a command for
any other. -/
theorem encAcceptStep : Obligations.EncAcceptStep := by
  intro s v hs
  rw [exec_encode_of_idle v hs]
  constructor
  · intro hv
    rw [if_pos hv]
    rfl
  · intro hv
    rw [if_neg (Int.not_lt.2 hv)]
    rfl

theorem toNat_emitByte_of_lt {n : Nat} (h : n < 128) : (emitByte n).toNat = n := by
  have hgroup := groupOf_toNat (emitByte n)
  have hbit := contBit_iff (emitByte n)
  rw [groupOf_emitByte, lowGroup_toNat] at hgroup
  rw [contBit_emitByte, decide_eq_true_eq] at hbit
  omega

theorem toNat_emitByte_of_ge {n : Nat} (h : 128 ≤ n) : (emitByte n).toNat = 128 + n % 128 := by
  have hgroup := groupOf_toNat (emitByte n)
  have hbit := (contBit_iff (emitByte n)).1 (by simpa using h)
  have hlt : (emitByte n).toNat < 256 := (emitByte n).isLt
  rw [groupOf_emitByte, lowGroup_toNat] at hgroup
  omega

/-- Settles O12: below the capacity ENC's turn is `Enc.emitTurn`, which writes the byte of `rem` at index `len`. -/
theorem encEmitStep : Obligations.EncEmitStep := by
  intro s hs hroom
  have hbyte : Memory.read s.enc.emitTurn.out s.enc.len = some (emitByte s.enc.rem) := by
    rw [Enc.emitTurn_out hs, Memory.read_write_same]
  refine ⟨_, takeTurn_enc_of_run hs (outIndexExists_iff.2 hroom), rfl, rfl, rfl, ?_, ?_, ?_, ?_⟩
  · rcases Nat.lt_or_ge s.enc.rem 128 with hr | hr
    · rw [Enc.emitTurn_of_lt hs hr, Enc.append_len]
    · rw [Enc.emitTurn_of_ge hs hr, Enc.append_len]
  · intro a ha
    rw [Enc.emitTurn_out hs]
    exact Memory.read_write_ne _ _ ha
  · intro hr
    refine ⟨⟨_, hbyte, toNat_emitByte_of_lt hr⟩, ?_⟩
    rw [Enc.emitTurn_of_lt hs hr]
    exact ⟨rfl, rfl, rfl, rfl⟩
  · intro hr
    refine ⟨⟨_, hbyte, toNat_emitByte_of_ge hr⟩, ?_⟩
    rw [Enc.emitTurn_of_ge hs hr]
    exact ⟨dropGroup_eq _, rfl, rfl, hs⟩

end Sys2Proof.Machine
end

section
/-! PROOFS. Runs in which a unit accepts no command: a run takes its commands from the head of the port, so none of its
turns accepts one either (70_reset_and_hazards.md R175). -/

namespace Sys2Proof.Machine

variable {s t : State}

/-- The commands that a turn takes from the port are those that leave it at the head. -/
theorem takeTurn_cmds {u : Turn} (h : takeTurn u s = .next t) : ∃ cs, s.host.cmds = cs ++ t.host.cmds := by
  cases u with
  | reset => cases h; exact ⟨[], rfl⟩
  | enc => rw [takeTurn_enc_next h]; exact ⟨[], rfl⟩
  | dec => rw [takeTurn_dec_next h]; exact ⟨[], rfl⟩
  | host =>
    rcases hostTurn_accepts h with rfl | ⟨c, cs, _, hc, -, -, -, rfl⟩ | ⟨c, cs, _, _, hc, -, -, -, rfl⟩
    · exact ⟨[], rfl⟩
    · exact ⟨[c], by simp [hc]⟩
    · exact ⟨[c], by simp [hc]⟩

theorem takeTurns_cmds {us : List Turn} (h : takeTurns us s = .next t) :
    ∃ cs, s.host.cmds = cs ++ t.host.cmds := by
  induction us generalizing s with
  | nil => rw [takeTurns_nil.1 h]; exact ⟨[], rfl⟩
  | cons u us ih =>
    obtain ⟨r, h1, h2⟩ := (takeTurns_cons u us).1 h
    obtain ⟨cs, hcs⟩ := takeTurn_cmds h1
    obtain ⟨cs', hcs'⟩ := ih h2
    exact ⟨cs ++ cs', by rw [hcs, hcs', List.append_assoc]⟩

/-- What the unit did not accept in a whole run it accepted in no part of it. -/
theorem NoneAcceptedFor.split {u : Agent} {r : State} {cs cs' : List Command} (h : NoneAcceptedFor u s t)
    (hcs : s.host.cmds = cs ++ r.host.cmds) (hcs' : r.host.cmds = cs' ++ t.host.cmds) :
    NoneAcceptedFor u s r ∧ NoneAcceptedFor u r t := by
  have hall : commandsFor u cs ++ commandsFor u cs' = [] := by
    rw [commandsFor, commandsFor, ← List.filter_append]
    exact h _ (by rw [hcs, hcs', List.append_assoc])
  obtain ⟨hleft, hright⟩ := List.append_eq_nil_iff.1 hall
  constructor
  · intro ds hds
    rwa [List.append_cancel_right (hds.symm.trans hcs)]
  · intro ds hds
    rwa [List.append_cancel_right (hds.symm.trans hcs')]

/-- What every turn keeps that accepts no command for the unit, a run keeps that accepts none. -/
theorem takeTurns_keeps_of_noneAccepted {P : State → Prop} {a : Agent} {us : List Turn}
    (hk : ∀ u ∈ us, ∀ s s' : State, P s → takeTurn u s = .next s' → NoneAcceptedFor a s s' → P s') (h : P s)
    (ht : takeTurns us s = .next t) (hn : NoneAcceptedFor a s t) : P t := by
  induction us generalizing s with
  | nil => rw [← takeTurns_nil.1 ht]; exact h
  | cons u us ih =>
    obtain ⟨r, h1, h2⟩ := (takeTurns_cons u us).1 ht
    obtain ⟨cs, hcs⟩ := takeTurn_cmds h1
    obtain ⟨cs', hcs'⟩ := takeTurns_cmds h2
    obtain ⟨hn1, hn2⟩ := hn.split hcs hcs'
    exact ih (fun x hx => hk x (.tail _ hx)) (hk u (.head _) s r h h1 hn1) h2 hn2

end Sys2Proof.Machine
end

section
/-! PROOFS. The loop of ENC-emit: the bytes written and those still to be written are `enc v`, and from that one
equation the invariant of 40_encode.md R94. -/

namespace Sys2Proof.Machine

variable {s t : State} {v : Nat} {e : Enc}

/-! ### The bytes still to be written -/

/-- `enc v` begins with the byte that ENC emits for `v` (40_encode.md R90, R92). -/
theorem enc_eq_emitByte_cons (v : Nat) :
    enc v = emitByte v :: if v < 128 then [] else enc (dropGroup v) := by
  rcases Nat.lt_or_ge v 128 with hv | hv
  · rw [enc_of_lt hv, emitByte, if_pos hv, if_pos hv]
  · rw [enc_of_ge hv, emitByte, if_neg (Nat.not_lt.2 hv), if_neg (Nat.not_lt.2 hv)]

/-- What ENC has still to write of the running command. -/
def Enc.pending (e : Enc) : List Byte :=
  match e.state with
  | .idle => []
  | .run => enc e.rem

theorem Enc.pending_of_idle (h : e.state = .idle) : e.pending = [] := by simp [pending, h]

theorem Enc.pending_of_run (h : e.state = .run) : e.pending = enc e.rem := by simp [pending, h]

theorem Enc.pending_ne_nil_iff : e.pending ≠ [] ↔ e.state = .run := by
  cases h : e.state with
  | idle => simp [pending_of_idle h]
  | run => simp [pending_of_run h, enc_ne_nil]

/-- ENC's turn takes the first of the bytes still to be written. -/
theorem Enc.pending_emitTurn (e : Enc) : e.emitTurn.pending = e.pending.tail := by
  cases hs : e.state with
  | idle => rw [emitTurn_of_idle hs, pending_of_idle hs, List.tail_nil]
  | run =>
    rw [pending_of_run hs, enc_eq_emitByte_cons, List.tail_cons]
    rcases Nat.lt_or_ge e.rem 128 with hr | hr
    · rw [emitTurn_of_lt hs hr, if_pos hr, pending_of_idle rfl]
    · rw [emitTurn_of_ge hs hr, if_neg (Nat.not_lt.2 hr)]
      exact pending_of_run hs

/-! ### The invariant of the loop -/

/-- ENC between the acceptance of the operand `v` and the next one: OUT has `enc.len` bytes, they and those still to be
written are `enc v`, and the command is done once it has ended. -/
structure Enc.Emits (v : Nat) (e : Enc) : Prop where
  out_sequence : e.out.isSequence e.len = true
  bytes : e.out.bytes ++ e.pending = enc v
  done : e.done = !e.busy
  err : e.err = none

theorem Enc.emits_begin (e : Enc) (v : Nat) : (e.begin v).Emits v := ⟨rfl, rfl, rfl, rfl⟩

theorem Enc.Emits.length_bytes (h : e.Emits v) : e.out.bytes.length = e.len :=
  ((Memory.isSequence_iff _ _).1 h.out_sequence).2

/-- A turn of ENC in `RUN` appends its byte to OUT (20_memory.md R57). -/
theorem Enc.emitTurn_out_of_sequence (hs : e.state = .run) (h : e.out.isSequence e.len = true) :
    e.emitTurn.out = .ofBytes (e.out.bytes ++ [emitByte e.rem]) := by
  rw [emitTurn_out hs, Memory.isSequence_write h]

/-- ENC's turn moves one byte from those still to be written to those written. -/
theorem Enc.Emits.emitTurn (h : e.Emits v) : e.emitTurn.Emits v := by
  cases hs : e.state with
  | idle => rwa [emitTurn_of_idle hs]
  | run =>
    have hout : e.emitTurn.out = .ofBytes (e.out.bytes ++ [emitByte e.rem]) :=
      emitTurn_out_of_sequence hs h.out_sequence
    have hlen : (e.out.bytes ++ [emitByte e.rem]).length = e.len + 1 := by
      rw [List.length_append, h.length_bytes, List.length_singleton]
    have hbytes : e.emitTurn.out.bytes ++ e.emitTurn.pending = Machine.enc v := by
      rw [hout, Memory.bytes_ofBytes, pending_emitTurn, ← h.bytes, pending_of_run hs, enc_eq_emitByte_cons,
        List.tail_cons, List.append_assoc, List.singleton_append]
    have hseq : e.emitTurn.out.isSequence (e.len + 1) = true := by
      rw [hout, ← hlen]
      exact Memory.isSequence_ofBytes _
    rcases Nat.lt_or_ge e.rem 128 with hr | hr
    · rw [emitTurn_of_lt hs hr] at hbytes hseq ⊢
      exact ⟨hseq, hbytes, rfl, rfl⟩
    · rw [emitTurn_of_ge hs hr] at hbytes hseq ⊢
      exact ⟨hseq, hbytes, h.done, h.err⟩

/-! ### What the invariant says of the registers (40_encode.md R94) -/

theorem Enc.Emits.bytes_of_idle (h : e.Emits v) (hs : e.state = .idle) : e.out.bytes = Machine.enc v := by
  rw [← h.bytes, pending_of_idle hs, List.append_nil]

theorem Enc.Emits.bytes_of_run (h : e.Emits v) (hs : e.state = .run) :
    e.out.bytes ++ Machine.enc e.rem = Machine.enc v := by
  rw [← h.bytes, pending_of_run hs]

theorem Enc.Emits.done_of_idle (h : e.Emits v) (hs : e.state = .idle) : e.done = true := by
  simp [h.done, busy, hs]

/-- 40_encode.md R94 (a). -/
theorem Enc.Emits.value (h : e.Emits v) (hs : e.state = .run) :
    v = groupsValue e.out.bytes + e.rem * 2 ^ (7 * e.len) := by
  calc v = groupsValue (Machine.enc v) := (groupsValue_enc v).symm
    _ = groupsValue (e.out.bytes ++ Machine.enc e.rem) := by rw [h.bytes_of_run hs]
    _ = _ := by rw [groupsValue_append, groupsValue_enc, h.length_bytes]

/-- 40_encode.md R94 (b). -/
theorem Enc.Emits.contBit (h : e.Emits v) (hs : e.state = .run) : ∀ b ∈ e.out.bytes, contBit b = true := by
  refine contBit_of_isVarint_append ?_ (enc_ne_nil e.rem)
  rw [h.bytes_of_run hs]
  exact isVarint_enc v

/-- 40_encode.md R94 (c): the bytes written are the `7 * enc.len` low bits of the operand. -/
theorem Enc.Emits.rem_eq (h : e.Emits v) (hs : e.state = .run) : e.rem = v >>> (7 * e.len) := by
  have hlt : groupsValue e.out.bytes < 2 ^ (7 * e.len) := h.length_bytes ▸ groupsValue_lt e.out.bytes
  rw [Nat.shiftRight_eq_div_pow, h.value hs, Nat.add_mul_div_right _ _ (Nat.two_pow_pos _),
    Nat.div_eq_of_lt hlt, Nat.zero_add]

/-- 40_encode.md R94 (d): with nothing left the last byte would be 0, which `enc` gives for the operand 0 only, and
then first. -/
theorem Enc.Emits.one_le_rem (h : e.Emits v) (hs : e.state = .run) (hlen : 1 ≤ e.len) : 1 ≤ e.rem := by
  have hbytes := h.bytes_of_run hs
  refine Nat.pos_of_ne_zero fun h0 => ?_
  rw [h0] at hbytes
  have hv : v = 0 := by
    apply eq_zero_of_getLast?_enc
    rw [← hbytes, List.getLast?_append]
    rfl
  have htwo := congrArg List.length hbytes
  have hone : (Machine.enc 0).length = 1 := rfl
  rw [hv, List.length_append, h.length_bytes, hone] at htwo
  omega

/-! ### The loop under any interleaving -/

/-- Without a command for it ENC changes in its own turns only. -/
theorem takeTurn_enc_of_noneAccepted {u : Turn} (hu : u ≠ .reset) (h : takeTurn u s = .next t)
    (hn : NoneAcceptedFor .enc s t) : t.enc = s.enc ∨ t.enc = s.enc.emitTurn := by
  cases u with
  | reset => exact absurd rfl hu
  | enc => rw [takeTurn_enc_next h]; exact .inr rfl
  | dec => rw [takeTurn_dec_next h]; exact .inl rfl
  | host =>
    rcases hostTurn_accepts h with rfl | ⟨c, cs, v, hc, -, ho, -, rfl⟩ | ⟨_, _, _, _, -, -, -, -, rfl⟩
    · exact .inl rfl
    · have hnil : commandsFor .enc [c] = [] := hn [c] (by simp [hc])
      rw [commandsFor_cons_own [] ho] at hnil
      cases hnil
    · exact .inl rfl

/-- Settles O15: acceptance begins the invariant of the loop, ENC's turns keep it, and no other turn touches ENC. -/
theorem encEmitLoopInvariant : Obligations.EncEmitLoopInvariant := by
  intro s s₁ t v us hs hv h₁ hus ht hn
  have hstart : s₁.enc.Emits v.toNat := by
    rw [exec_encode_of_idle v hs, if_neg (Int.not_lt.2 hv)] at h₁
    cases h₁
    exact s.enc.emits_begin _
  have hend : t.enc.Emits v.toNat := by
    refine takeTurns_keeps_of_noneAccepted (P := fun r => r.enc.Emits v.toNat) (fun u hu r r' hr h hn => ?_)
      hstart ht hn
    rcases takeTurn_enc_of_noneAccepted (hus u hu) h hn with heq | heq
    · rwa [heq]
    · rw [heq]
      exact hr.emitTurn
  refine ⟨hend.out_sequence, fun hrun => ?_, fun hidle => ?_⟩
  · exact ⟨hend.value hrun, hend.contBit hrun, hend.rem_eq hrun, hend.one_le_rem hrun⟩
  · rw [hend.bytes_of_idle hidle, groupsValue_enc]

end Sys2Proof.Machine
end

section
/-! PROOFS. Every step keeps the invariant: each unit's operations first, then the turns (40_encode.md R94, 41_decode.md
R121, 10_state.md R24, R37, 60_exceptions.md R145). -/

namespace Sys2Proof.Machine

variable {s t : State} {p : Params} {v : Nat} {e : Enc} {d : Dec}

/-! ### ENC -/

/-- An output of `enc` fits in OUT if the value fits in the build (00_scope.md R7). -/
theorem length_enc_le_lMax (hp : p.wellFormed = true) (hv : p.valueBits.holds v = true) {m : Nat}
    (hm : p.lMax = some m) : (enc v).length ≤ m := by
  cases hw : p.valueBits with
  | inf => simp [lMax_of_inf hw] at hm
  | finite w =>
    obtain rfl : (w + 6) / 7 = m := by simpa [lMax_of_finite hw] using hm
    exact length_enc_le_of_lt (valueBits_pos hp hw) (by simpa [hw, Width.holds] using hv)

theorem Enc.Emits.len_le (h : e.Emits v) : e.len ≤ (Machine.enc v).length := by
  rw [← h.length_bytes, ← h.bytes, List.length_append]
  exact Nat.le_add_right ..

/-- An ENC that emits an operand of the build meets the invariant. -/
theorem Enc.Emits.inv (h : e.Emits v) (hp : p.wellFormed = true) (hv : p.valueBits.holds v = true)
    (hr : p.valueBits.holds e.rem = true) : e.Inv p where
  out_sequence := h.out_sequence
  rem_holds := hr
  len_le _ hm := h.len_le.trans (length_enc_le_lMax hp hv hm)
  err_kind := .inl h.err
  fail_empty hne := absurd h.err hne
  run_status hs := ⟨by simp [h.done, busy, hs], h.err⟩
  run_cont := h.contBit
  run_rem := h.one_le_rem
  run_operand hs := by rwa [← h.value hs]
  ok_result hok := by
    have hidle : e.state = .idle := by
      cases hs : e.state with
      | idle => rfl
      | run => simp [ok, h.done, busy, hs] at hok
    exact ⟨v, hv, h.bytes_of_idle hidle⟩

/-- A running ENC of the invariant emits the operand that R94 (a) recovers. -/
theorem Enc.Inv.emits (h : e.Inv p) (hs : e.state = .run) :
    e.Emits (groupsValue e.out.bytes + e.rem * 2 ^ (7 * e.len)) := by
  obtain ⟨-, hlen⟩ := (Memory.isSequence_iff _ _).1 h.out_sequence
  obtain ⟨hdone, herr⟩ := h.run_status hs
  refine ⟨h.out_sequence, ?_, by simp [hdone, busy, hs], herr⟩
  have hrem (hne : e.out.bytes ≠ []) : 1 ≤ e.rem :=
    h.run_rem hs (hlen ▸ List.length_pos_of_ne_nil hne)
  rw [pending_of_run hs, enc_groupsValue_append (h.run_cont hs) hrem, hlen]

theorem Enc.emitTurn_rem_le (e : Enc) : e.emitTurn.rem ≤ e.rem := by
  cases hs : e.state with
  | idle => rw [emitTurn_of_idle hs]
  | run =>
    rcases Nat.lt_or_ge e.rem 128 with hr | hr
    · rw [emitTurn_of_lt hs hr, append_rem]
    · rw [emitTurn_of_ge hs hr]
      exact (dropGroup_eq e.rem).trans_le (Nat.div_le_self ..)

theorem Enc.Inv.emitTurn (h : e.Inv p) (hp : p.wellFormed = true) : e.emitTurn.Inv p := by
  cases hs : e.state with
  | idle => rwa [emitTurn_of_idle hs]
  | run => exact (h.emits hs).emitTurn.inv hp (h.run_operand hs) (holds_mono e.emitTurn_rem_le h.rem_holds)

theorem Enc.inv_begin (hp : p.wellFormed = true) (hv : p.valueBits.holds v = true) (e : Enc) :
    (e.begin v).Inv p := (e.emits_begin v).inv hp hv hv

/-- A failed ENCODE leaves OUT empty (60_exceptions.md R152). -/
theorem Enc.Inv.fail (h : e.Inv p) : (e.fail .invalidInput).Inv p where
  out_sequence := rfl
  rem_holds := h.rem_holds
  len_le _ _ := Nat.zero_le _
  err_kind := .inr rfl
  fail_empty _ := rfl
  run_status := nofun
  run_cont := nofun
  run_rem := nofun
  run_operand := nofun
  ok_result := nofun

/-- An operand that is not negative and that the port can carry is a number of the width (30_encoding.md R83). -/
theorem holds_of_wellFormed_encode {v : Int} (h : Instr.wellFormed p (.encode v) = true) (hv : 0 ≤ v) :
    p.valueBits.holds v.toNat = true := by
  cases hw : p.valueBits with
  | inf => rfl
  | finite w =>
    simp only [Instr.wellFormed, hw, Bool.and_eq_true, decide_eq_true_eq] at h
    simp only [Width.holds, decide_eq_true_eq]
    obtain ⟨-, hlt⟩ := h
    exact (Int.toNat_lt hv).2 (by exact_mod_cast hlt)

/-- Acceptance of an operand of the build, whatever its sign. -/
theorem Enc.Inv.accept (h : e.Inv p) (hp : p.wellFormed = true) {v : Int}
    (hv : Instr.wellFormed p (.encode v) = true) :
    (if v < 0 then e.fail .invalidInput else e.begin v.toNat).Inv p := by
  split
  · exact h.fail
  · next hneg => exact Enc.inv_begin hp (holds_of_wellFormed_encode hv (Int.not_lt.1 hneg)) e

/-! ### DEC -/

/-- DEC's counter of free values is no matter of the invariant. -/
theorem Dec.Inv.withDraws (h : d.Inv p) (n : Nat) : Dec.Inv p { d with draws := n } := { h with }

theorem Dec.Inv.begin (h : d.Inv p) {bs : List Byte} (hbs : p.lenBits.holds bs.length = true) (m : DecMode) :
    (d.begin m bs).Inv p where
  in_sequence := Memory.isSequence_ofBytes bs
  inLen_holds := hbs
  idx_holds := holds_zero _
  acc_holds := holds_zero _
  value_holds := h.value_holds
  consumed_holds := h.consumed_holds
  err_kind := nofun
  err_trailing := nofun
  err_overflow := nofun
  run_status _ := ⟨rfl, rfl⟩
  run_idx _ := Nat.zero_le _
  run_shift _ := rfl
  run_acc _ := rfl
  run_cont _ := nofun
  ok_result := nofun

/-- Error entry keeps the invariant if the error is one that the command and the build can meet (60_exceptions.md
R145). -/
theorem Dec.Inv.fail (h : d.Inv p) {x : Err} (hkind : x ≠ .invalidInput)
    (htrailing : x = .trailingData → d.mode = .decode ∧ p.decodeStrict = true)
    (hoverflow : x = .valueOverflow → p.valueBits ≠ .inf) : (d.fail p x).Inv p where
  in_sequence := h.in_sequence
  inLen_holds := h.inLen_holds
  idx_holds := holds_clipTo _ _
  acc_holds := holds_clipTo _ _
  value_holds := h.value_holds
  consumed_holds := h.consumed_holds
  err_kind heq := hkind (Option.some.inj heq)
  err_trailing heq := htrailing (Option.some.inj heq)
  err_overflow heq := hoverflow (Option.some.inj heq)
  run_status := nofun
  run_idx := nofun
  run_shift := nofun
  run_acc := nofun
  run_cont := nofun
  ok_result := nofun

/-- The error entry of `TrailingData` comes after the byte was taken, of which it leaves nothing. -/
theorem Dec.fail_take (d : Dec) (g : Group) (x : Err) : (d.take g).fail p x = d.fail p x := rfl

/-- The bytes before the next index are those before this one and the byte read. -/
theorem Dec.Inv.take_succ_idx (h : d.Inv p) {b : Byte} (hb : d.inBuf.read d.idx = some b) :
    d.inBuf.bytes.take (d.idx + 1) = d.inBuf.bytes.take d.idx ++ [b] := by
  obtain ⟨hseq, -⟩ := (Memory.isSequence_iff _ _).1 h.in_sequence
  rw [hseq, Memory.read_ofBytes] at hb
  rw [List.take_add_one, hb, Option.toList_some]

/-- With the group of the byte read, the accumulator is the value of the bytes read (41_decode.md R121 (b)). -/
theorem Dec.Inv.take_acc (h : d.Inv p) (hs : d.state = .run) {b : Byte} (hb : d.inBuf.read d.idx = some b) :
    (d.take (groupOf b)).acc = groupsValue (d.inBuf.bytes.take (d.idx + 1)) := by
  obtain ⟨-, hlen⟩ := (Memory.isSequence_iff _ _).1 h.in_sequence
  have hpre : (d.inBuf.bytes.take d.idx).length = d.idx :=
    List.length_take_of_le (by rw [hlen]; exact h.run_idx hs)
  have hadd := addGroup_groupsValue (d.inBuf.bytes.take d.idx) b
  rw [hpre] at hadd
  rw [Dec.take_acc, h.run_acc hs, h.run_shift hs, hadd, h.take_succ_idx hb]

theorem Dec.Inv.take_acc_holds (h : d.Inv p) {g : Group}
    (hw : p.valueBits.holds (placeGroup g d.shift) = true) : p.valueBits.holds (d.take g).acc = true :=
  holds_addGroup h.acc_holds hw

theorem Dec.Inv.take_idx_holds (h : d.Inv p) (hi : d.idx < d.inLen) : p.lenBits.holds (d.idx + 1) = true :=
  holds_mono hi h.inLen_holds

/-- A CONT byte that passes the width check moves the loop on (41_decode.md R121). -/
theorem Dec.Inv.goOn_take (h : d.Inv p) (hs : d.state = .run) (hi : d.idx < d.inLen) {b : Byte}
    (hb : d.inBuf.read d.idx = some b) (hw : p.valueBits.holds (placeGroup (groupOf b) d.shift) = true)
    (hc : contBit b = true) : (d.take (groupOf b)).goOn.Inv p :=
  { h with
    idx_holds := h.take_idx_holds hi
    acc_holds := h.take_acc_holds hw
    run_idx := fun _ => hi
    run_shift := fun _ => congrArg (· + 7) (h.run_shift hs)
    run_acc := fun _ => h.take_acc hs hb
    run_cont := fun _ => by
      show ∀ x ∈ d.inBuf.bytes.take (d.idx + 1), contBit x = true
      rw [h.take_succ_idx hb, List.forall_mem_append, List.forall_mem_singleton]
      exact ⟨h.run_cont hs, hc⟩ }

/-- A TERM byte that passes the width check and the trailing-data test ends the command with the varint read
(41_decode.md R110, R115). -/
theorem Dec.Inv.finish_take (h : d.Inv p) (hs : d.state = .run) (hi : d.idx < d.inLen) {b : Byte}
    (hb : d.inBuf.read d.idx = some b) (hw : p.valueBits.holds (placeGroup (groupOf b) d.shift) = true)
    (hc : contBit b = false)
    (ht : (d.mode == .decode && p.decodeStrict && decide (d.idx + 1 < d.inLen)) = false) :
    (d.take (groupOf b)).finish.Inv p :=
  { h with
    idx_holds := h.take_idx_holds hi
    acc_holds := h.take_acc_holds hw
    value_holds := h.take_acc_holds hw
    consumed_holds := h.take_idx_holds hi
    err_kind := nofun
    err_trailing := nofun
    err_overflow := nofun
    run_status := nofun
    run_idx := nofun
    run_shift := nofun
    run_acc := nofun
    run_cont := nofun
    ok_result := fun _ => by
      refine ⟨hi, ?_, h.take_acc hs hb, fun hm hstrict => ?_⟩
      · show isVarint (d.inBuf.bytes.take (d.idx + 1)) = true
        rw [h.take_succ_idx hb]
        exact isVarint_snoc (h.run_cont hs) hc
      · have hmode : d.mode = .decode := hm
        have hend : ¬ d.idx + 1 < d.inLen := by simpa [hmode, hstrict] using ht
        show d.idx + 1 = d.inLen
        omega }

/-- The width check fails in a build of finite width only (60_exceptions.md R149). -/
theorem valueBits_ne_inf_of_not_holds {x : Nat} (h : p.valueBits.holds x = false) : p.valueBits ≠ .inf := by
  intro hinf
  rw [hinf] at h
  cases h

theorem Dec.Inv.takeByte (h : d.Inv p) (hs : d.state = .run) (hi : d.idx < d.inLen) {b : Byte}
    (hb : d.inBuf.read d.idx = some b) : (d.takeByte p b).Inv p := by
  unfold Dec.takeByte
  split
  · next hw => exact h.fail nofun nofun fun _ => valueBits_ne_inf_of_not_holds hw
  · next hw =>
    rw [Bool.not_eq_false] at hw
    split
    · next hc => exact h.goOn_take hs hi hb hw hc
    · next hc =>
      split
      · next ht =>
        simp only [Bool.and_eq_true, beq_iff_eq] at ht
        obtain ⟨hstrict, -⟩ := ht
        rw [Dec.fail_take]
        exact h.fail nofun (fun _ => hstrict) nofun
      · next ht => exact h.finish_take hs hi hb hw (Bool.eq_false_of_not_eq_true hc) (Bool.eq_false_of_not_eq_true ht)

theorem Dec.Inv.scanTurn (h : d.Inv p) : (d.scanTurn p).Inv p := by
  unfold Dec.scanTurn
  split
  · exact h
  · next hs =>
    split
    · exact h.fail nofun nofun nofun
    · next hne =>
      split
      · next hb => exact h.takeByte hs (lt_of_le_of_ne (h.run_idx hs) hne) hb
      · exact h

/-! ### The machine -/

theorem State.Inv.takeTurn_host (hs : s.Inv) (h : takeTurn .host s = .next t) : t.Inv := by
  rcases hostTurn_accepts h with rfl | ⟨_, _, v, -, hi, -, -, rfl⟩ | ⟨_, _, m, bs, -, hi, -, -, rfl⟩
  · exact hs
  · obtain ⟨hv, -⟩ := decodeCommand_cases hi
    exact ⟨hs.build, hs.enc.accept hs.build hv, hs.dec⟩
  · obtain ⟨hw, -⟩ := decodeCommand_cases hi
    have hbs : s.build.lenBits.holds bs.length = true := by
      cases m with
      | decode => exact hw
      | parse => exact hw
    exact ⟨hs.build, hs.enc, hs.dec.begin hbs m⟩

theorem State.Inv.takeTurn (hs : s.Inv) {u : Turn} (h : takeTurn u s = .next t) : t.Inv := by
  cases u with
  | reset =>
    cases h
    exact ⟨hs.build, Enc.inv_reset _, (Dec.inv_reset _).withDraws _⟩
  | host => exact hs.takeTurn_host h
  | enc =>
    rw [takeTurn_enc_next h]
    exact ⟨hs.build, hs.enc.emitTurn hs.build, hs.dec⟩
  | dec =>
    rw [takeTurn_dec_next h]
    exact ⟨hs.build, hs.enc, hs.dec.scanTurn⟩

/-- Settles O50: a step is a turn at a state of the invariant, and the turn of each agent keeps it. -/
theorem everyStepKeepsTheInvariant : Obligations.EveryStepKeepsTheInvariant :=
  fun _ _ hs h => hs.dropTurn.takeTurn h

end Sys2Proof.Machine
end

section
/-! PROOFS. A whole ENCODE: ENC's turns one after another, the turn at which the command ends, and the outcome
(40_encode.md R93, R99). -/

namespace Sys2Proof.Machine

variable {s : State} {p : Params} {v : Nat} {e : Enc}

/-! ### ENC's turns one after another -/

/-- As for a state of the whole invariant, but nothing is asked of DEC: R99 speaks of any state with an idle ENC. -/
theorem Enc.Inv.takeTurn_enc (h : s.enc.Inv s.build) (hp : s.build.wellFormed = true) :
    takeTurn .enc s = .next { s with enc := s.enc.emitTurn } := by
  cases hrun : s.enc.state with
  | idle => rw [takeTurn_enc_of_idle hrun, Enc.emitTurn_of_idle hrun]
  | run => exact takeTurn_enc_of_run hrun (outIndexExists_iff.2 fun _ hm => h.len_lt hp hrun hm)

/-- Turns of ENC alone touch nothing else (10_state.md R22). -/
theorem Enc.Inv.takeTurns_enc (h : s.enc.Inv s.build) (hp : s.build.wellFormed = true) (n : Nat) :
    takeTurns (List.replicate n .enc) s = .next { s with enc := Enc.emitTurn^[n] s.enc } := by
  induction n generalizing s with
  | zero => rfl
  | succ n ih =>
    rw [List.replicate_succ, takeTurns_cons, Function.iterate_succ_apply]
    exact ⟨_, h.takeTurn_enc hp, ih (s := { s with enc := s.enc.emitTurn }) (h.emitTurn hp) hp⟩

theorem Enc.Inv.iterate_emitTurn (h : e.Inv p) (hp : p.wellFormed = true) (n : Nat) :
    (Enc.emitTurn^[n] e).Inv p :=
  Function.Iterate.rec (Enc.Inv p) h (fun _ he => he.emitTurn hp) n

theorem Enc.Emits.iterate_emitTurn (h : e.Emits v) (n : Nat) : (Enc.emitTurn^[n] e).Emits v :=
  Function.Iterate.rec (Enc.Emits v) h (fun _ he => he.emitTurn) n

/-- Each turn takes one byte. -/
theorem Enc.pending_iterate_emitTurn (e : Enc) (n : Nat) :
    (Enc.emitTurn^[n] e).pending = e.pending.drop n := by
  induction n with
  | zero => rfl
  | succ n ih => rw [Function.iterate_succ_apply', pending_emitTurn, ih, List.tail_drop]

/-- A command runs as long as bytes are left (40_encode.md R93). -/
theorem Enc.iterate_emitTurn_run_iff (e : Enc) (n : Nat) :
    (Enc.emitTurn^[n] e).state = .run ↔ n < e.pending.length := by
  rw [← pending_ne_nil_iff, pending_iterate_emitTurn, ne_eq, List.drop_eq_nil_iff, Nat.not_le]

/-- After as many turns as bytes are left the command has ended. -/
theorem Enc.iterate_emitTurn_idle (e : Enc) : (Enc.emitTurn^[e.pending.length] e).state = .idle := by
  have hrun := e.iterate_emitTurn_run_iff e.pending.length
  cases hs : (Enc.emitTurn^[e.pending.length] e).state with
  | idle => rfl
  | run => exact absurd (hrun.1 hs) (Nat.lt_irrefl _)

theorem Enc.pending_begin (e : Enc) (v : Nat) : (e.begin v).pending = Machine.enc v := pending_of_run rfl

/-! ### The command -/

/-- Settles O14: ENC runs as long as bytes of `enc v` are left, and each of its turns takes one. -/
theorem encodeTakesItsLengthInSteps : Obligations.EncodeTakesItsLengthInSteps := by
  intro s s₁ t v n hp hw hs h₁ ht
  rw [exec_encode_of_idle v hs] at h₁
  cases h₁
  constructor
  · intro hv
    simp [hv]
  · intro hv
    have hinv : (s.enc.begin v.toNat).Inv s.build := Enc.inv_begin hp (holds_of_wellFormed_encode hw hv) _
    rw [if_neg (Int.not_lt.2 hv),
      Enc.Inv.takeTurns_enc (s := { s with enc := s.enc.begin v.toNat }) hinv hp] at ht
    cases ht
    rw [Enc.iterate_emitTurn_run_iff, Enc.pending_begin, length_enc]

/-- Settles O13: a negative operand is over at once; for any other the turns write `enc v` byte by byte. -/
theorem encodeRunAgreesWithFunction : Obligations.EncodeRunAgreesWithFunction := by
  intro s v hp hw hs
  rcases lt_or_ge v 0 with hv | hv
  · have hexec : exec (.encode v) s = .next { s with enc := s.enc.fail .invalidInput } := by
      rw [exec_encode_of_idle v hs, if_pos hv]
    have hout : encOutcome { s with enc := s.enc.fail .invalidInput } = some (encodeFn v) := by
      rw [encOutcome_of_err rfl rfl, encodeFn, if_pos hv]
    rw [if_pos hv]
    exact ⟨_, _, hexec, takeTurns_nil.2 rfl, rfl, rfl, hout, fun _ => ⟨rfl, rfl⟩, fun h => by omega⟩
  · have hexec : exec (.encode v) s = .next { s with enc := s.enc.begin v.toNat } := by
      rw [exec_encode_of_idle v hs, if_neg (Int.not_lt.2 hv)]
    have hbegin : (s.enc.begin v.toNat).Inv s.build := Enc.inv_begin hp (holds_of_wellFormed_encode hw hv) _
    have hrun := Enc.Inv.takeTurns_enc (s := { s with enc := s.enc.begin v.toNat }) hbegin hp
    have hinv := hbegin.iterate_emitTurn hp (enc v.toNat).length
    have hemits := (s.enc.emits_begin v.toNat).iterate_emitTurn (enc v.toNat).length
    have hidle := (s.enc.begin v.toNat).iterate_emitTurn_idle
    rw [Enc.pending_begin] at hidle
    have hdone := hemits.done_of_idle hidle
    have hbytes := hemits.bytes_of_idle hidle
    rw [if_neg (Int.not_lt.2 hv)]
    refine ⟨_, _, hexec, hrun _, hidle, hdone, ?_, fun h => by omega, fun _ => ⟨hemits.err, ?_⟩⟩
    · rw [encOutcome_of_ok hinv hdone hemits.err, hbytes, encodeFn, if_neg (Int.not_lt.2 hv)]
    · rw [Memory.readSeq_isSequence hinv.out_sequence, hbytes]

end Sys2Proof.Machine
end

section
/-! PROOFS. `scan` and DECODE at function level: what a successful scan says of the sequence, and the sequences for
which DECODE is `Ok` (41_decode.md R110, R114, R118, R120; 30_encoding.md R72, R73). -/

namespace Sys2Proof.Machine

variable {w : Width} {p : Params} {bs : List Byte} {v c : Nat}

/-! ### The first varint of a sequence -/

/-- The loop reads nothing after the TERM byte (41_decode.md R117). -/
theorem scanLoop_append_of_ok {acc shift i : Nat} {r : Nat × Nat} (cs : List Byte)
    (h : scanLoop w acc shift i bs = .ok r) : scanLoop w acc shift i (bs ++ cs) = .ok r := by
  induction bs generalizing acc shift i with
  | nil => cases h
  | cons b bs ih =>
    simp only [List.cons_append, scanLoop] at h ⊢
    split at h
    · cases h
    · next hw =>
      rw [if_neg hw]
      split at h
      · next hc =>
        rw [if_pos hc]
        exact ih h
      · next hc => rwa [if_neg hc]

/-- From the bytes `pre` on, a scan that succeeds has found a varint, and its value with the groups of `pre` is of the
width because each group passed the check. -/
theorem varint_of_scanLoop_ok {pre : List Byte} (hpre : w.holds (groupsValue pre) = true)
    (h : scanLoop w (groupsValue pre) (7 * pre.length) pre.length bs = .ok (v, c)) :
    ∃ vs post, bs = vs ++ post ∧ isVarint vs = true ∧ v = groupsValue (pre ++ vs) ∧
      c = (pre ++ vs).length ∧ w.holds v = true := by
  induction bs generalizing pre with
  | nil => cases h
  | cons b bs ih =>
    rw [scanLoop_cons] at h
    split at h
    · cases h
    · next hb =>
      have hsnoc : w.holds (groupsValue (pre ++ [b])) = true :=
        holds_groupsValue_snoc hpre (Bool.eq_true_of_not_eq_false hb)
      split at h
      · next hc =>
        obtain ⟨vs, post, rfl, hvs, hv, hlen, hw⟩ := ih hsnoc h
        rw [← List.append_cons] at hv hlen
        exact ⟨b :: vs, post, rfl, isVarint_cons.2 (.inr ⟨hc, hvs⟩), hv, hlen, hw⟩
      · next hc =>
        cases h
        exact ⟨[b], bs, rfl, isVarint_cons.2 (.inl ⟨Bool.eq_false_of_not_eq_true hc, rfl⟩), rfl, rfl, hsnoc⟩

/-- `scan` succeeds exactly on a varint of the width at the start of the sequence (41_decode.md R110). -/
theorem scan_eq_ok_iff : scan w bs = .ok (v, c) ↔
    c ≤ bs.length ∧ isVarint (bs.take c) = true ∧ v = groupsValue (bs.take c) ∧ w.holds v = true := by
  constructor
  · intro h
    obtain ⟨vs, post, rfl, hvs, hv, hc, hw⟩ := varint_of_scanLoop_ok (pre := []) (holds_zero w) h
    obtain rfl : c = vs.length := hc
    rw [List.take_left, List.length_append]
    exact ⟨Nat.le_add_right .., hvs, hv, hw⟩
  · rintro ⟨hle, hvs, rfl, hw⟩
    have h := scanLoop_append_of_ok (bs.drop c) (scan_isVarint hvs hw)
    rwa [List.take_append_drop, List.length_take_of_le hle] at h

/-- Settles O32: a scan that succeeds has found a varint, and a varint of the width is scanned whatever follows it. -/
theorem scanGivesTheValueOfTheFirstVarint : Obligations.ScanGivesTheValueOfTheFirstVarint :=
  fun _ _ _ _ => scan_eq_ok_iff

/-! ### DECODE -/

/-- Settles O37: `enc v` is a varint with the value `v`. -/
theorem decodeInvertsEncode : Obligations.DecodeInvertsEncode := by
  intro p v hv
  have hscan := scan_isVarint (w := p.valueBits) (isVarint_enc v)
  have hdecode := decodeFn_isVarint (p := p) (isVarint_enc v)
  rw [groupsValue_enc] at hscan hdecode
  exact ⟨hscan hv, hdecode hv⟩

/-- Strict DECODE takes a scan that has read the whole sequence (41_decode.md R113). -/
theorem decodeFn_eq_value_iff (hp : p.decodeStrict = true) :
    decodeFn p bs = .value v ↔ ∃ c, scan p.valueBits bs = .ok (v, c) ∧ bs.length ≤ c := by
  unfold decodeFn
  split
  · next hs => simp [hs]
  · next u c hs =>
    simp only [hs, Except.ok.injEq, Prod.mk.injEq]
    split
    · next hlt => simp [hlt.2]
    · next hlt =>
      have hle : bs.length ≤ c := Nat.not_lt.1 fun h => hlt ⟨hp, h⟩
      simp [hle]

/-- DECODE answers a value or an error (41_decode.md R113). -/
theorem decodeFn_value_or_error (p : Params) (bs : List Byte) :
    (∃ v, decodeFn p bs = .value v) ∨ ∃ e, decodeFn p bs = .error e := by
  unfold decodeFn
  split
  · exact .inr ⟨_, rfl⟩
  · split
    · exact .inr ⟨_, rfl⟩
    · exact .inl ⟨_, rfl⟩

theorem decodeFn_eq_value_iff_isVarint (hp : p.decodeStrict = true) :
    decodeFn p bs = .value v ↔ isVarint bs = true ∧ v = groupsValue bs ∧ p.valueBits.holds v = true := by
  rw [decodeFn_eq_value_iff hp]
  constructor
  · rintro ⟨c, hs, hle⟩
    obtain ⟨-, hvs⟩ := scan_eq_ok_iff.1 hs
    rwa [List.take_of_length_le hle] at hvs
  · rintro ⟨hvs, rfl, hw⟩
    exact ⟨_, scan_isVarint hvs hw, le_rfl⟩

/-- Settles O41: DECODE answers nothing but values and errors, and the values are those of single varints. -/
theorem strictDecodeAcceptsExactlyVarints : Obligations.StrictDecodeAcceptsExactlyVarints := by
  intro p bs hp
  refine ⟨fun v => decodeFn_eq_value_iff_isVarint hp, fun hnot => ?_⟩
  rcases decodeFn_value_or_error p bs with ⟨v, hv⟩ | he
  · obtain ⟨hvs, rfl, hw⟩ := (decodeFn_eq_value_iff_isVarint hp).1 hv
    exact absurd ⟨hvs, hw⟩ hnot
  · exact he

theorem groupsValue_zero_groups (n : Nat) : groupsValue (List.replicate n 0x80 ++ [0x00]) = 0 := by
  induction n with
  | zero => rfl
  | succ n ih =>
    rw [List.replicate_succ, List.cons_append, groupsValue_cons, ih]
    rfl

/-- Settles O44: the bytes are a varint of the value 0, which every width holds. -/
theorem zeroGroupsNeverOverflow : Obligations.ZeroGroupsNeverOverflow := by
  intro p n
  have hcont : ∀ b ∈ List.replicate n (0x80 : Byte), contBit b = true := by
    intro b hb
    rw [List.eq_of_mem_replicate hb]
    rfl
  have hvarint : isVarint (List.replicate n 0x80 ++ [0x00]) = true := isVarint_snoc hcont rfl
  have h := decodeFn_isVarint (p := p) hvarint
  rw [groupsValue_zero_groups] at h
  exact h (holds_zero _)

end Sys2Proof.Machine
end

section
/-! PROOFS. The width check of the DEC-scan step on numbers (41_decode.md R118). -/

namespace Sys2Proof.Machine

/-- The second form of the check (41_decode.md R118), on numbers: at or above the width any one bit is too much, below
it the bits that stand above the `n - k` lowest are. -/
theorem two_pow_le_shift_iff (n k g : Nat) (hg : g < 2 ^ 7) :
    2 ^ n ≤ g * 2 ^ k ↔ (n ≤ k ∧ g ≠ 0) ∨ (k < n ∧ n - k < 7 ∧ g >>> (n - k) ≠ 0) := by
  rcases Nat.lt_or_ge k n with hk | hk
  · have hpow : 2 ^ n = 2 ^ (n - k) * 2 ^ k := by rw [← Nat.pow_add, Nat.sub_add_cancel hk.le]
    have hhigh : g >>> (n - k) ≠ 0 ↔ 2 ^ (n - k) ≤ g := by
      rw [Nat.shiftRight_eq_div_pow, ne_eq, Nat.div_eq_zero_iff_lt (Nat.two_pow_pos _), Nat.not_lt]
    have hseven (h : 2 ^ (n - k) ≤ g) : n - k < 7 :=
      (Nat.pow_lt_pow_iff_right (by decide)).1 (h.trans_lt hg)
    rw [hpow, Nat.mul_le_mul_right_iff (Nat.two_pow_pos k), hhigh]
    exact ⟨fun h => .inr ⟨hk, hseven h, h⟩, fun h => h.elim (fun h => by omega) fun h => h.2.2⟩
  · have hiff : 2 ^ n ≤ g * 2 ^ k ↔ g ≠ 0 := by
      constructor
      · rintro h rfl
        have := Nat.two_pow_pos n
        omega
      · intro h
        calc 2 ^ n ≤ 2 ^ k := Nat.pow_le_pow_right (by decide) hk
          _ ≤ g * 2 ^ k := Nat.le_mul_of_pos_left _ (Nat.pos_of_ne_zero h)
    rw [hiff]
    exact ⟨fun h => .inl ⟨hk, h⟩, fun h => h.elim (fun h => h.2) fun h => by omega⟩

/-- Settles O35: the check is `2^W ≤ g * 2^shift`, which `two_pow_le_shift_iff` splits at `shift = W`. -/
theorem widthCheckForms : Obligations.WidthCheckForms := by
  intro n acc k g
  have hcheck : overflowsWidth (.finite n) (placeGroup g k) = true ↔ 2 ^ n ≤ g.toNat * 2 ^ k := by
    rw [overflowsWidth_eq, placeGroup_eq]
    simp [Width.holds]
  have hzero : g ≠ 0 ↔ g.toNat ≠ 0 := not_congr BitVec.toNat_inj.symm
  refine ⟨?_, fun hacc hpass => ?_, addGroup_eq g, rfl⟩
  · rw [hcheck, hzero]
    exact two_pow_le_shift_iff n k g.toNat g.isLt
  · have hacc' : (Width.finite n).holds acc = true := decide_eq_true hacc
    have hgroup : (Width.finite n).holds (placeGroup g k) = true := by simpa [overflowsWidth_eq] using hpass
    exact of_decide_eq_true (holds_addGroup hacc' hgroup)

end Sys2Proof.Machine
end

section
/-! PROOFS. The two steps of DEC: acceptance, and the DEC-scan step with each way it can end, with what they leave alone
(41_decode.md R111, R112, R115, R118; 60_exceptions.md R151). -/

namespace Sys2Proof.Machine

variable {s : State} {g : Group}

/-- Settles O8: using up the turn changes nothing of DEC, so it finds the byte at its index. -/
theorem stepRunsTheByteRead : Obligations.StepRunsTheByteRead := by
  intro s b hn hs hi hb
  rw [step, hn]
  exact decTurn_of_byte (s := dropTurn s) hs hi hb

/-- Settles O20: both commands are the DEC-accept step. -/
theorem decAcceptStep : Obligations.DecAcceptStep :=
  fun _ bs hs => ⟨decAccept_of_idle .decode bs hs, decAccept_of_idle .parse bs hs, Memory.read_ofBytes bs⟩

/-! ### Errors -/

theorem decErrorLeaves_raise (e : Err) (s : State) : DecErrorLeaves e s (raise .dec e s) :=
  ⟨rfl, rfl, rfl, fun _ => ⟨rfl, rfl⟩, rfl, rfl, rfl, rfl, rfl, rfl, rfl, rfl⟩

/-- The byte taken before the error touches only what is not defined after it (60_exceptions.md R154). -/
theorem decErrorLeaves_raise_take (e : Err) (s : State) (g : Group) :
    DecErrorLeaves e s (raise .dec e { s with dec := s.dec.take g }) :=
  ⟨rfl, rfl, rfl, fun _ => ⟨rfl, rfl⟩, rfl, rfl, rfl, rfl, rfl, rfl, rfl, rfl⟩

/-- Settles O23: DEC's turn makes the exhaustion test before it reads. -/
theorem exhaustedInputRaisesTruncatedInput : Obligations.ExhaustedInputRaisesTruncatedInput := by
  intro s hs hi
  have hturn : takeTurn .dec s = .next (raise .dec .truncatedInput s) := by
    rw [takeTurn_dec_of_end hs hi, Dec.scanTurn_of_end hs hi]
    rfl
  exact ⟨_, hturn, decErrorLeaves_raise ..⟩

theorem scanWith_of_not_holds {k : State → Host.Outcome State Fault Refusal} (hs : s.dec.state = .run)
    (hi : s.dec.idx < s.dec.inLen) (hw : s.build.valueBits.holds (placeGroup g s.dec.shift) = false) :
    scanWith g k s = .next (raise .dec .valueOverflow s) := by
  rw [scanWith_of_lt hs hi, if_pos hw]

/-- Settles O24: CONT and TERM begin with the same test. -/
theorem widthCheckRaisesValueOverflow : Obligations.WidthCheckRaisesValueOverflow := by
  intro s g hs hi hw
  have hcont : exec (.cont g) s = .next (raise .dec .valueOverflow s) := by
    rw [exec, execCont, scanWith_of_not_holds hs hi hw]
  have hterm : exec (.term g) s = .next (raise .dec .valueOverflow s) := by
    rw [exec, execTerm, scanWith_of_not_holds hs hi hw]
  exact ⟨⟨_, hcont, decErrorLeaves_raise ..⟩, ⟨_, hterm, decErrorLeaves_raise ..⟩⟩

/-! ### A group that passes the width check -/

theorem scanWith_of_holds {k : State → Host.Outcome State Fault Refusal} (hs : s.dec.state = .run)
    (hi : s.dec.idx < s.dec.inLen) (hw : s.build.valueBits.holds (placeGroup g s.dec.shift) = true) :
    scanWith g k s = k { s with dec := s.dec.take g } := by
  rw [scanWith_of_lt hs hi, if_neg (by simp [hw])]

/-- The trailing-data test looks for a byte behind the one just taken (41_decode.md R115). -/
theorem trailing_take_iff : trailing { s with dec := s.dec.take g } = true ↔
    s.dec.mode = .decode ∧ s.build.decodeStrict = true ∧ s.dec.idx + 1 < s.dec.inLen := by
  simp [trailing_take, and_assoc]

/-- Settles O21: the continuation of CONT at the state with the group taken. -/
theorem contByteGoesOn : Obligations.ContByteGoesOn := by
  intro s g hs hi hw
  have hexec : exec (.cont g) s = .next { s with dec := (s.dec.take g).goOn } := by
    rw [exec, execCont, scanWith_of_holds hs hi hw]
  exact ⟨_, hexec, fun _ => ⟨rfl, rfl⟩, rfl⟩

/-- Settles O22: the continuation of TERM where the trailing-data test finds nothing. -/
theorem termByteEndsWithOk : Obligations.TermByteEndsWithOk := by
  intro s g hs hi hw ht
  have hexec : exec (.term g) s = .next { s with dec := (s.dec.take g).finish } := by
    rw [exec, execTerm, scanWith_of_holds hs hi hw, if_neg (mt trailing_take_iff.1 ht)]
  exact ⟨_, hexec, fun _ => ⟨rfl, rfl⟩, rfl⟩

/-- Settles O25: the continuation of TERM where the test finds a byte. -/
theorem strictDecodeRaisesTrailingData : Obligations.StrictDecodeRaisesTrailingData := by
  intro s g hs hw hm hstrict hlt
  have hexec : exec (.term g) s = .next (raise .dec .trailingData { s with dec := s.dec.take g }) := by
    rw [exec, execTerm, scanWith_of_holds hs (by omega) hw, if_pos (trailing_take_iff.2 ⟨hm, hstrict, hlt⟩)]
  exact ⟨_, hexec, decErrorLeaves_raise_take ..⟩

/-! ### The DEC-scan step -/

/-- Settles O26: the byte read is a CONT or a TERM byte, and each exit of the step is one of the statements above. -/
theorem decScanStep : Obligations.DecScanStep := by
  intro s hs
  refine ⟨exhaustedInputRaisesTruncatedInput s hs, fun b hi hb => ?_⟩
  have hturn : takeTurn .dec s = exec (decodeByte b) s := decTurn_of_byte hs hi hb
  rw [hturn, ← groupOf_toNat]
  cases hw : s.build.valueBits.holds ((groupOf b).toNat <<< s.dec.shift) with
  | false =>
    obtain ⟨hcont, hterm⟩ := widthCheckRaisesValueOverflow s (groupOf b) hs hi hw
    simp only [if_pos]
    cases hc : contBit b with
    | true => rwa [decodeByte_of_cont hc]
    | false => rwa [decodeByte_of_term hc]
  | true =>
    simp only [Bool.true_eq_false, if_false, ← contBit_iff]
    cases hc : contBit b with
    | true =>
      obtain ⟨t, ht, -, heq⟩ := contByteGoesOn s (groupOf b) hs hi hw
      rw [decodeByte_of_cont hc]
      exact ⟨t, ht, heq⟩
    | false =>
      rw [decodeByte_of_term hc]
      by_cases htrail : s.dec.mode = .decode ∧ s.build.decodeStrict = true ∧ s.dec.idx + 1 < s.dec.inLen
      · obtain ⟨hm, hstrict, hlt⟩ := htrail
        obtain ⟨t, ht, hleaves⟩ := strictDecodeRaisesTrailingData s (groupOf b) hs hw hm hstrict hlt
        refine ⟨t, ht, ?_⟩
        rwa [if_neg Bool.false_ne_true, if_pos ⟨hm, hstrict, hlt⟩]
      · obtain ⟨t, ht, -, heq⟩ := termByteEndsWithOk s (groupOf b) hs hi hw htrail
        refine ⟨t, ht, ?_⟩
        rwa [if_neg Bool.false_ne_true, if_neg htrail]

end Sys2Proof.Machine
end

section
/-! PROOFS. The number of DEC-scan steps of a command, at function level (41_decode.md R117). -/

namespace Sys2Proof.Machine

variable {w : Width} {acc shift i : Nat} {bs : List Byte}

/-- Each step but the last takes a byte, and the last may be the one that finds no byte. -/
theorem scanStepsFrom_le (w : Width) (shift : Nat) (bs : List Byte) :
    scanStepsFrom w shift bs ≤ bs.length + 1 := by
  induction bs generalizing shift with
  | nil => exact le_rfl
  | cons b bs ih =>
    have hrest := ih (shift + 7)
    simp only [scanStepsFrom, List.length_cons]
    split
    · omega
    · split <;> omega

/-- A scan that succeeds takes a step for each byte that it consumes. -/
theorem scanStepsFrom_of_ok {v c : Nat} (h : scanLoop w acc shift i bs = .ok (v, c)) :
    i + scanStepsFrom w shift bs = c := by
  induction bs generalizing acc shift i with
  | nil => cases h
  | cons b bs ih =>
    simp only [scanLoop] at h
    simp only [scanStepsFrom]
    split at h
    · cases h
    · next hw =>
      rw [if_neg hw]
      split at h
      · next hc =>
        rw [if_pos hc, ← ih h]
        omega
      · next hc =>
        cases h
        rw [if_neg hc]

/-- A scan that finds no TERM byte takes a step for each byte and one for the end of the input. -/
theorem scanStepsFrom_of_truncated (h : scanLoop w acc shift i bs = .error .truncatedInput) :
    scanStepsFrom w shift bs = bs.length + 1 := by
  induction bs generalizing acc shift i with
  | nil => rfl
  | cons b bs ih =>
    simp only [scanLoop] at h
    simp only [scanStepsFrom]
    split at h
    · cases h
    · next hw =>
      rw [if_neg hw]
      split at h
      · next hc => rw [if_pos hc, ih h, List.length_cons]
      · cases h

/-! ### Steps over CONT bytes -/

theorem scanStepsFrom_passes (cs : List Byte) (h : passesFrom w i bs = true) :
    scanStepsFrom w (7 * i) (bs ++ cs) = bs.length + scanStepsFrom w (7 * (i + bs.length)) cs := by
  induction bs generalizing i with
  | nil => simp
  | cons b bs ih =>
    simp only [passesFrom, Bool.and_eq_true] at h
    obtain ⟨⟨hc, hw⟩, hrest⟩ := h
    have hlen : i + 1 + bs.length = i + (b :: bs).length := by rw [List.length_cons]; omega
    simp only [List.cons_append, scanStepsFrom, overflowsWidth_eq, hw, hc, Bool.not_true, Bool.false_eq_true,
      if_false, if_true]
    rw [← Nat.mul_succ, ih hrest, hlen, List.length_cons]
    omega

/-- CONT bytes pass the width check if their value, with that of the groups before them, is of the width. -/
theorem passesFrom_of_holds {pre : List Byte} (hc : ∀ b ∈ bs, contBit b = true)
    (hw : w.holds (groupsValue (pre ++ bs)) = true) : passesFrom w pre.length bs = true := by
  induction bs generalizing pre with
  | nil => rfl
  | cons b bs ih =>
    obtain ⟨hb, hbs⟩ := List.forall_mem_cons.1 hc
    have hgroup : w.holds (placeGroup (groupOf b) (7 * pre.length)) = true :=
      holds_mono (placeGroup_le_groupsValue pre b bs) hw
    rw [List.append_cons] at hw
    have hrest := ih hbs hw
    rw [List.length_append, List.length_singleton] at hrest
    simp [passesFrom, hb, hgroup, hrest]

/-- The step that finds the overflow is that of the byte whose group makes the value too wide. -/
theorem scanSteps_of_overflow {pre : List Byte} {b : Byte} (post : List Byte) (hc : ∀ x ∈ pre, contBit x = true)
    (hpre : w.holds (groupsValue pre) = true) (hb : w.holds (groupsValue (pre ++ [b])) = false) :
    scanSteps w (pre ++ b :: post) = pre.length + 1 := by
  have hgroup : w.holds (placeGroup (groupOf b) (7 * pre.length)) = false := by
    refine Bool.eq_false_of_not_eq_true fun h => ?_
    rw [holds_groupsValue_snoc hpre h] at hb
    cases hb
  have hpass : passesFrom w 0 pre = true := passesFrom_of_holds (pre := []) hc hpre
  have hsteps := scanStepsFrom_passes (b :: post) hpass
  rw [Nat.zero_add] at hsteps
  rw [scanSteps]
  refine hsteps.trans ?_
  simp [scanStepsFrom, overflowsWidth_eq, hgroup]

end Sys2Proof.Machine
end

section
/-! PROOFS. The loop of DEC-scan: the registers of a running DEC are the variables of `scan`, and an ended command shows
what `scan` gave. DEC's turns keep that, and no other turn touches DEC (41_decode.md R119, R121). -/

namespace Sys2Proof.Machine

variable {s t : State} {p : Params} {m : DecMode} {bs : List Byte} {b : Byte} {d : Dec}

/-! ### The invariant of the loop -/

/-- A running DEC has read the first `dec.idx` bytes of `bs` (41_decode.md R121), and `scan` goes on from its registers
as it began. -/
structure Dec.InLoop (p : Params) (bs : List Byte) (d : Dec) : Prop where
  idx_le : d.idx ≤ bs.length
  shift : d.shift = 7 * d.idx
  acc : d.acc = groupsValue (bs.take d.idx)
  cont : ∀ b ∈ bs.take d.idx, contBit b = true
  acc_holds : p.valueBits.holds d.acc = true
  scan : scanLoop p.valueBits d.acc d.shift d.idx (bs.drop d.idx) = Machine.scan p.valueBits bs

/-- DEC shows the result of `scan`: its error, or `TrailingData` of strict DECODE, or its value (41_decode.md R112,
R115). -/
def Dec.Shows (p : Params) (d : Dec) : Except Err (Nat × Nat) → Prop
  | .error e => d.err = some e
  | .ok (v, c) =>
    if d.mode = .decode ∧ p.decodeStrict = true ∧ c < d.inLen then d.err = some .trailingData
    else d.err = none ∧ d.value = v ∧ d.consumed = c

/-- DEC between the acceptance of a command on `bs` and the next one. -/
structure Dec.Scans (p : Params) (m : DecMode) (bs : List Byte) (d : Dec) : Prop where
  command : d.command = (m, .ofBytes bs, bs.length)
  done : d.done = !d.busy
  inLoop : d.state = .run → d.InLoop p bs
  shows : d.state = .idle → d.Shows p (scan p.valueBits bs)

theorem Dec.scans_begin (p : Params) (m : DecMode) (bs : List Byte) (d : Dec) : (d.begin m bs).Scans p m bs where
  command := rfl
  done := rfl
  inLoop _ := ⟨Nat.zero_le _, rfl, rfl, nofun, holds_zero _, rfl⟩
  shows := nofun

theorem Dec.Scans.mode (h : d.Scans p m bs) : d.mode = m := congrArg (·.1) h.command

theorem Dec.Scans.inBuf (h : d.Scans p m bs) : d.inBuf = .ofBytes bs := congrArg (·.2.1) h.command

theorem Dec.Scans.inLen (h : d.Scans p m bs) : d.inLen = bs.length := congrArg (·.2.2) h.command

theorem Dec.Scans.done_of_idle (h : d.Scans p m bs) (hs : d.state = .idle) : d.done = true := by
  simp [h.done, busy, hs]

/-! ### One turn -/

theorem take_succ_of_getElem? {i : Nat} (hb : bs[i]? = some b) : bs.take (i + 1) = bs.take i ++ [b] := by
  rw [List.take_add_one, hb, Option.toList_some]

theorem drop_of_getElem? {i : Nat} (hb : bs[i]? = some b) : bs.drop i = b :: bs.drop (i + 1) := by
  rw [List.drop_eq_getElem?_toList_append, hb, Option.toList_some, List.singleton_append]

/-- What the next byte makes of `scan`, in the registers of DEC (41_decode.md R110). -/
theorem Dec.InLoop.scan_next (h : d.InLoop p bs) (hb : bs[d.idx]? = some b) :
    Machine.scan p.valueBits bs =
      if p.valueBits.holds (placeGroup (groupOf b) d.shift) = false then .error .valueOverflow
      else if contBit b then
        scanLoop p.valueBits (d.take (groupOf b)).acc (d.shift + 7) (d.idx + 1) (bs.drop (d.idx + 1))
      else .ok ((d.take (groupOf b)).acc, d.idx + 1) := by
  rw [← h.scan, drop_of_getElem? hb, scanLoop, overflowsWidth_eq]
  simp only [Bool.not_eq_true', take_acc]

theorem Dec.InLoop.take_acc (h : d.InLoop p bs) (hb : bs[d.idx]? = some b) :
    (d.take (groupOf b)).acc = groupsValue (bs.take (d.idx + 1)) := by
  have hadd := addGroup_groupsValue (bs.take d.idx) b
  rw [List.length_take_of_le h.idx_le] at hadd
  rw [Dec.take_acc, h.acc, h.shift, hadd, take_succ_of_getElem? hb]

/-- A CONT byte that passes the width check moves the loop on. -/
theorem Dec.InLoop.goOn_take (h : d.InLoop p bs) (hb : bs[d.idx]? = some b)
    (hw : p.valueBits.holds (placeGroup (groupOf b) d.shift) = true) (hc : contBit b = true) :
    (d.take (groupOf b)).goOn.InLoop p bs where
  idx_le := (List.getElem?_eq_some_iff.1 hb).1
  shift := congrArg (· + 7) h.shift
  acc := h.take_acc hb
  cont := by
    show ∀ x ∈ bs.take (d.idx + 1), contBit x = true
    rw [take_succ_of_getElem? hb, List.forall_mem_append, List.forall_mem_singleton]
    exact ⟨h.cont, hc⟩
  acc_holds := holds_addGroup h.acc_holds hw
  scan := by
    rw [h.scan_next hb, if_neg (by simp [hw]), if_pos hc]
    rfl

theorem Dec.Scans.fail (h : d.Scans p m bs) {x : Err} (hx : scan p.valueBits bs = .error x) :
    (d.fail p x).Scans p m bs where
  command := h.command
  done := rfl
  inLoop := nofun
  shows _ := by rw [hx]; rfl

/-- The byte read moves the loop on, or ends the command with what `scan` gives. -/
theorem Dec.Scans.takeByte (h : d.Scans p m bs) (hs : d.state = .run) (hb : bs[d.idx]? = some b) :
    (d.takeByte p b).Scans p m bs := by
  have hnext := (h.inLoop hs).scan_next hb
  unfold Dec.takeByte
  split
  · next hw =>
    rw [if_pos hw] at hnext
    exact h.fail hnext
  · next hw =>
    rw [if_neg hw] at hnext
    split
    · next hc =>
      have hloop := (h.inLoop hs).goOn_take hb (Bool.eq_true_of_not_eq_false hw) hc
      exact ⟨h.command, h.done, fun _ => hloop, fun hidle => absurd (hs.symm.trans hidle) nofun⟩
    · next hc =>
      rw [if_neg hc] at hnext
      split
      · next ht =>
        simp only [Bool.and_eq_true, beq_iff_eq, decide_eq_true_eq, and_assoc] at ht
        refine ⟨h.command, rfl, nofun, fun _ => ?_⟩
        rw [hnext, Dec.Shows]
        exact (if_pos ht).mpr rfl
      · next ht =>
        simp only [Bool.and_eq_true, beq_iff_eq, decide_eq_true_eq, and_assoc] at ht
        refine ⟨h.command, rfl, nofun, fun _ => ?_⟩
        rw [hnext, Dec.Shows]
        exact (if_neg ht).mpr ⟨rfl, rfl, rfl⟩

/-- What a turn of a running DEC does: at the end of the input it raises `TruncatedInput`, elsewhere it reads a byte. -/
theorem Dec.Scans.scanTurn_cases (h : d.Scans p m bs) (hs : d.state = .run) :
    (d.idx = d.inLen ∧ bs.drop d.idx = [] ∧ d.scanTurn p = d.fail p .truncatedInput) ∨
    (d.idx < d.inLen ∧ ∃ b, bs[d.idx]? = some b ∧ d.scanTurn p = d.takeByte p b) := by
  have hlen := h.inLen
  rcases (h.inLoop hs).idx_le.eq_or_lt with hend | hlt
  · have hi : d.idx = d.inLen := by rw [hend, hlen]
    exact .inl ⟨hi, by simp [hend], scanTurn_of_end hs hi⟩
  · have hb : bs[d.idx]? = some bs[d.idx] := List.getElem?_eq_getElem hlt
    have hi : d.idx < d.inLen := by rwa [hlen]
    refine .inr ⟨hi, _, hb, scanTurn_of_byte hs hi.ne ?_⟩
    rw [h.inBuf, Memory.read_ofBytes, hb]

theorem Dec.Scans.scanTurn (h : d.Scans p m bs) : (d.scanTurn p).Scans p m bs := by
  cases hs : d.state with
  | idle => rwa [scanTurn_of_idle hs]
  | run =>
    rcases h.scanTurn_cases hs with ⟨-, hdrop, heq⟩ | ⟨-, b, hb, heq⟩
    · have hscan := (h.inLoop hs).scan
      rw [hdrop] at hscan
      rw [heq]
      exact h.fail hscan.symm
    · rw [heq]
      exact h.takeByte hs hb

/-- A DEC that scans always has its step: the byte it reads is there (20_memory.md R54). -/
theorem Dec.Scans.takeTurn_dec (h : s.dec.Scans p m bs) :
    takeTurn .dec s = .next { s with dec := s.dec.scanTurn s.build } := by
  cases hs : s.dec.state with
  | idle => rw [takeTurn_dec_of_idle hs, Dec.scanTurn_of_idle hs]
  | run =>
    rcases h.scanTurn_cases hs with ⟨hi, -, -⟩ | ⟨hi, b, hb, -⟩
    · exact takeTurn_dec_of_end hs hi
    · refine takeTurn_dec_of_byte (b := b) hs hi ?_
      rw [memReadIn, if_pos hi, h.inBuf, Memory.read_ofBytes, hb]

/-! ### The loop under any interleaving -/

theorem takeTurn_build {u : Turn} (h : takeTurn u s = .next t) : t.build = s.build := by
  cases u with
  | reset => cases h; rfl
  | enc => rw [takeTurn_enc_next h]
  | dec => rw [takeTurn_dec_next h]
  | host =>
    rcases hostTurn_accepts h with rfl | ⟨_, _, _, -, -, -, -, rfl⟩ | ⟨_, _, _, _, -, -, -, -, rfl⟩ <;> rfl

/-- Without a command for it DEC changes in its own turns only. -/
theorem takeTurn_dec_of_noneAccepted {u : Turn} (hu : u ≠ .reset) (h : takeTurn u s = .next t)
    (hn : NoneAcceptedFor .dec s t) : t.dec = s.dec ∨ t.dec = s.dec.scanTurn s.build := by
  cases u with
  | reset => exact absurd rfl hu
  | enc => rw [takeTurn_enc_next h]; exact .inl rfl
  | dec => rw [takeTurn_dec_next h]; exact .inr rfl
  | host =>
    rcases hostTurn_accepts h with rfl | ⟨_, _, _, -, -, -, -, rfl⟩ | ⟨c, cs, _, _, hc, -, ho, -, rfl⟩
    · exact .inl rfl
    · exact .inl rfl
    · have hnil : commandsFor .dec [c] = [] := hn [c] (by simp [hc])
      rw [commandsFor_cons_own [] ho] at hnil
      cases hnil

/-- DEC accepts either command on `bs` by beginning it (41_decode.md R111). -/
theorem exec_dec_of_idle {i : Instr} (hi : i = .decode bs ∨ i = .parse bs) (hs : s.dec.state = .idle) :
    ∃ m, exec i s = .next { s with dec := s.dec.begin m bs } := by
  rcases hi with rfl | rfl
  · exact ⟨.decode, decAccept_of_idle .decode bs hs⟩
  · exact ⟨.parse, decAccept_of_idle .parse bs hs⟩

/-- Settles O31: acceptance begins the invariant of the loop, DEC's turns keep it, and no other turn touches DEC. -/
theorem decScanLoopInvariant : Obligations.DecScanLoopInvariant := by
  intro s s₁ t i bs us hs hi h₁ hus ht hn hrun
  obtain ⟨m, hexec⟩ := exec_dec_of_idle hi hs
  have hstart : s₁.build = s.build ∧ s₁.dec.Scans s.build m bs := by
    rw [hexec] at h₁
    cases h₁
    exact ⟨rfl, Dec.scans_begin ..⟩
  obtain ⟨-, hscans⟩ : t.build = s.build ∧ t.dec.Scans s.build m bs := by
    refine takeTurns_keeps_of_noneAccepted (P := fun r => r.build = s.build ∧ r.dec.Scans s.build m bs)
      (fun u hu r r' ⟨hb, hr⟩ h hn => ⟨(takeTurn_build h).trans hb, ?_⟩) hstart ht hn
    rcases takeTurn_dec_of_noneAccepted (hus u hu) h hn with heq | heq
    · rwa [heq]
    · rw [heq, hb]
      exact hr.scanTurn
  have hloop := hscans.inLoop hrun
  have hlt : t.dec.acc < 2 ^ t.dec.shift := by
    have h := groupsValue_lt (bs.take t.dec.idx)
    rwa [List.length_take_of_le hloop.idx_le, ← hloop.acc, ← hloop.shift] at h
  refine ⟨hloop.shift, hloop.acc, hlt, fun g => addGroup_eq g hlt, hloop.cont, ?_, hscans.inBuf, hscans.inLen,
    fun w hw => ?_⟩
  · rw [hscans.inLen]
    exact hloop.idx_le
  · have hholds := hloop.acc_holds
    rw [hw] at hholds
    exact of_decide_eq_true hholds

end Sys2Proof.Machine
end

section
/-! PROOFS. A whole DECODE or PARSE: DEC's turns one after another, the turn at which the command ends, and the outcome
(41_decode.md R117, R119). -/

namespace Sys2Proof.Machine

variable {s : State} {p : Params} {m : DecMode} {bs : List Byte} {b : Byte} {d : Dec}

/-! ### The number of steps -/

/-- The turns that DEC still takes for the running command (41_decode.md R117). -/
def Dec.stepsLeft (p : Params) (bs : List Byte) (d : Dec) : Nat :=
  match d.state with
  | .idle => 0
  | .run => scanStepsFrom p.valueBits d.shift (bs.drop d.idx)

theorem Dec.stepsLeft_of_idle (h : d.state = .idle) : d.stepsLeft p bs = 0 := by simp [stepsLeft, h]

theorem Dec.stepsLeft_of_run (h : d.state = .run) :
    d.stepsLeft p bs = scanStepsFrom p.valueBits d.shift (bs.drop d.idx) := by simp [stepsLeft, h]

theorem Dec.stepsLeft_begin (m : DecMode) (d : Dec) : (d.begin m bs).stepsLeft p bs = scanSteps p.valueBits bs :=
  stepsLeft_of_run rfl

theorem scanStepsFrom_pos (w : Width) (shift : Nat) (bs : List Byte) : 0 < scanStepsFrom w shift bs := by
  cases bs with
  | nil => exact Nat.one_pos
  | cons b bs =>
    rw [scanStepsFrom]
    split
    · exact Nat.one_pos
    · split <;> exact Nat.succ_pos _

theorem Dec.stepsLeft_pos_iff : 0 < d.stepsLeft p bs ↔ d.state = .run := by
  cases h : d.state with
  | idle => simp [stepsLeft_of_idle h]
  | run => simp [stepsLeft_of_run h, scanStepsFrom_pos]

theorem Dec.stepsLeft_takeByte (hs : d.state = .run) (hb : bs[d.idx]? = some b) :
    (d.takeByte p b).stepsLeft p bs = d.stepsLeft p bs - 1 := by
  rw [stepsLeft_of_run hs, drop_of_getElem? hb, scanStepsFrom, overflowsWidth_eq]
  simp only [Bool.not_eq_true']
  unfold Dec.takeByte
  split
  · rfl
  · split
    · exact stepsLeft_of_run hs
    · split <;> rfl

/-- Each turn is one step. -/
theorem Dec.Scans.stepsLeft_scanTurn (h : d.Scans p m bs) :
    (d.scanTurn p).stepsLeft p bs = d.stepsLeft p bs - 1 := by
  cases hs : d.state with
  | idle => rw [scanTurn_of_idle hs, stepsLeft_of_idle hs]
  | run =>
    rcases h.scanTurn_cases hs with ⟨-, hdrop, heq⟩ | ⟨-, b, hb, heq⟩
    · rw [heq, stepsLeft_of_run hs, hdrop, stepsLeft_of_idle rfl]
      rfl
    · rw [heq, stepsLeft_takeByte hs hb]

theorem Dec.Scans.iterate_scanTurn (h : d.Scans p m bs) (n : Nat) : ((Dec.scanTurn p)^[n] d).Scans p m bs :=
  Function.Iterate.rec (Dec.Scans p m bs) h (fun _ hd => hd.scanTurn) n

theorem Dec.Scans.stepsLeft_iterate_scanTurn (h : d.Scans p m bs) (n : Nat) :
    ((Dec.scanTurn p)^[n] d).stepsLeft p bs = d.stepsLeft p bs - n := by
  induction n with
  | zero => rfl
  | succ n ih =>
    rw [Function.iterate_succ_apply', (h.iterate_scanTurn n).stepsLeft_scanTurn, ih, Nat.sub_sub]

/-- Turns of DEC alone touch nothing else (10_state.md R22). -/
theorem Dec.Scans.takeTurns_dec (h : s.dec.Scans s.build m bs) (n : Nat) :
    takeTurns (List.replicate n .dec) s = .next { s with dec := (Dec.scanTurn s.build)^[n] s.dec } := by
  induction n generalizing s with
  | zero => rfl
  | succ n ih =>
    rw [List.replicate_succ, takeTurns_cons, Function.iterate_succ_apply]
    exact ⟨_, h.takeTurn_dec, ih (s := { s with dec := s.dec.scanTurn s.build }) h.scanTurn⟩

/-- A command on `bs` runs for as many turns as `scanSteps` counts. -/
theorem Dec.iterate_scanTurn_begin_run_iff (p : Params) (m : DecMode) (bs : List Byte) (d : Dec) (n : Nat) :
    ((Dec.scanTurn p)^[n] (d.begin m bs)).state = .run ↔ n < scanSteps p.valueBits bs := by
  rw [← stepsLeft_pos_iff (p := p) (bs := bs), (Dec.scans_begin p m bs d).stepsLeft_iterate_scanTurn,
    stepsLeft_begin, Nat.sub_pos_iff_lt]

/-- Settles O30: each turn is one of the steps that `scanSteps` counts, and `scan` and the groups of the sequence tell
how many those are. -/
theorem scanStepCountsAreExact : Obligations.ScanStepCountsAreExact := by
  constructor
  · intro s s₁ t i bs n hs hi h₁ ht
    obtain ⟨m, hexec⟩ := exec_dec_of_idle hi hs
    rw [hexec] at h₁
    cases h₁
    rw [Dec.Scans.takeTurns_dec (s := { s with dec := s.dec.begin m bs }) (Dec.scans_begin ..)] at ht
    cases ht
    exact Dec.iterate_scanTurn_begin_run_iff ..
  · intro w bs
    refine ⟨scanStepsFrom_le w 0 bs, fun v c h => ?_, scanStepsFrom_of_truncated, ?_⟩
    · rw [scanSteps, ← scanStepsFrom_of_ok h, Nat.zero_add]
    · rintro pre b post rfl hc hpre hb
      exact scanSteps_of_overflow post hc hpre hb

/-! ### The outcome -/

/-- The outcome of an ended DECODE (10_state.md R28, 41_decode.md R113). -/
theorem decOutcome_of_scans_decode (h : s.dec.Scans p .decode bs) (hs : s.dec.state = .idle) :
    decOutcome s = some (decodeFn p bs) := by
  have hdone := h.done_of_idle hs
  have hshows := h.shows hs
  unfold decodeFn
  cases hscan : scan p.valueBits bs with
  | error e =>
    rw [hscan] at hshows
    exact decOutcome_of_err hdone hshows
  | ok r =>
    obtain ⟨v, c⟩ := r
    rw [hscan, Dec.Shows, h.inLen] at hshows
    by_cases ht : p.decodeStrict = true ∧ c < bs.length
    · rw [if_pos ⟨h.mode, ht⟩] at hshows
      rw [decOutcome_of_err hdone hshows]
      simp [ht]
    · rw [if_neg (fun hall => ht hall.2)] at hshows
      obtain ⟨herr, hvalue, -⟩ := hshows
      rw [decOutcome_of_decode hdone herr h.mode, hvalue]
      simp [ht]

/-- The outcome of an ended PARSE (10_state.md R28, 42_parse.md R130): the remainder is in the input, because `scan`
has consumed no more than the input holds. -/
theorem decOutcome_of_scans_parse (h : s.dec.Scans p .parse bs) (hs : s.dec.state = .idle) :
    decOutcome s = some (parseFn p bs) := by
  have hdone := h.done_of_idle hs
  have hshows := h.shows hs
  unfold parseFn
  cases hscan : scan p.valueBits bs with
  | error e =>
    rw [hscan] at hshows
    exact decOutcome_of_err hdone hshows
  | ok r =>
    obtain ⟨v, c⟩ := r
    have hle : c ≤ bs.length := (scan_eq_ok_iff.1 hscan).1
    rw [hscan, Dec.Shows, h.mode, if_neg nofun] at hshows
    obtain ⟨herr, hvalue, hconsumed⟩ := hshows
    have hread : Memory.readSeq (.ofBytes bs) c (bs.length - c) = some (bs.drop c) := by
      rw [Memory.readSeq_ofBytes _ _ _ (by omega), ← List.length_drop, List.take_length]
    simp [decOutcome, Dec.remainderResult, Dec.ok, hdone, herr, hvalue, hconsumed, h.mode, h.inBuf, h.inLen, hread]

/-- The accept step and as many DEC-scan steps as `scanSteps` counts end the command. -/
theorem scanRun_ends (m : DecMode) (bs : List Byte) (s : State) :
    ∃ t, takeTurns (List.replicate (scanSteps s.build.valueBits bs) .dec) { s with dec := s.dec.begin m bs } =
        .next t ∧
      t.dec.state = .idle ∧ t.dec.Scans s.build m bs := by
  have hbegin : (s.dec.begin m bs).Scans s.build m bs := Dec.scans_begin ..
  refine ⟨_, Dec.Scans.takeTurns_dec (s := { s with dec := s.dec.begin m bs }) hbegin _, ?_,
    hbegin.iterate_scanTurn _⟩
  have hrun := Dec.iterate_scanTurn_begin_run_iff s.build m bs s.dec (scanSteps s.build.valueBits bs)
  cases hstate : ((Dec.scanTurn s.build)^[scanSteps s.build.valueBits bs] (s.dec.begin m bs)).state with
  | idle => rfl
  | run => exact absurd (hrun.1 hstate) (Nat.lt_irrefl _)

/-- Settles O29: the command ends with a DEC that shows what `scan` gives. -/
theorem scanRunAgreesWithFunction : Obligations.ScanRunAgreesWithFunction := by
  intro s bs hs
  constructor
  · obtain ⟨t, hrun, hidle, hscans⟩ := scanRun_ends .decode bs s
    exact ⟨_, t, decAccept_of_idle .decode bs hs, hrun, hidle, hscans.done_of_idle hidle,
      decOutcome_of_scans_decode hscans hidle⟩
  · obtain ⟨t, hrun, hidle, hscans⟩ := scanRun_ends .parse bs s
    exact ⟨_, t, decAccept_of_idle .parse bs hs, hrun, hidle, hscans.done_of_idle hidle,
      decOutcome_of_scans_parse hscans hidle⟩

end Sys2Proof.Machine
end

section
/-! PROOFS. PARSE at function level: what its two kinds of outcome say of `scan`, the remainder, its relation to
DECODE, and the stream of values that repeated PARSE gives back (42_parse.md R130, R131, R133, R135, R136). -/

namespace Sys2Proof.Machine

variable {w : Width} {p : Params} {bs r : List Byte} {v : Nat} {e : Err}

/-! ### The outcomes of PARSE -/

/-- `scan` raises no errors but the two that its loop has (41_decode.md R110). -/
theorem scanLoop_error_cases {acc shift i : Nat} (h : scanLoop w acc shift i bs = .error e) :
    e = .truncatedInput ∨ e = .valueOverflow := by
  induction bs generalizing acc shift i with
  | nil => exact .inl (Except.error.inj h).symm
  | cons b bs ih =>
    rw [scanLoop] at h
    split at h
    · exact .inr (Except.error.inj h).symm
    · split at h
      · exact ih h
      · cases h

theorem parseFn_eq_pair_iff : parseFn p bs = .pair v r ↔ ∃ c, scan p.valueBits bs = .ok (v, c) ∧ r = bs.drop c := by
  unfold parseFn
  split
  · next hs => simp [hs]
  · next u c hs => simp [hs, eq_comm]

theorem parseFn_eq_error_iff : parseFn p bs = .error e ↔ scan p.valueBits bs = .error e := by
  unfold parseFn
  split
  · next hs => simp [hs]
  · next hs => simp [hs]

/-- PARSE answers a value with a remainder, or an error of `scan` (42_parse.md R130). -/
theorem parseFn_pair_or_error (p : Params) (bs : List Byte) :
    (∃ v r, parseFn p bs = .pair v r) ∨
      ∃ e, parseFn p bs = .error e ∧ (e = .truncatedInput ∨ e = .valueOverflow) := by
  cases hs : scan p.valueBits bs with
  | error e => exact .inr ⟨e, parseFn_eq_error_iff.2 hs, scanLoop_error_cases hs⟩
  | ok vc => exact .inl ⟨vc.1, bs.drop vc.2, parseFn_eq_pair_iff.2 ⟨vc.2, hs, rfl⟩⟩

/-! ### The remainder -/

/-- Settles O40: the scan has consumed a varint, which is not empty and lies within the input. -/
theorem parseRemainderFollowsTheVarint : Obligations.ParseRemainderFollowsTheVarint := by
  intro p s r v h
  obtain ⟨c, hs, rfl⟩ := parseFn_eq_pair_iff.1 h
  obtain ⟨hle, hvarint, hv, -⟩ := scan_eq_ok_iff.1 hs
  have hpos : c ≠ 0 := by
    rintro rfl
    exact ne_nil_of_isVarint hvarint List.take_zero
  refine ⟨c, Nat.one_le_iff_ne_zero.2 hpos, hle, rfl, (List.take_append_drop c s).symm, hvarint, hv, ?_⟩
  rw [List.drop_eq_nil_iff]
  exact ⟨hle.antisymm, fun h => h.ge⟩

/-- PARSE takes a varint of the width off the front of any sequence (42_parse.md R131). -/
theorem parseFn_isVarint_append (hvarint : isVarint bs = true) (hw : p.valueBits.holds (groupsValue bs) = true)
    (t : List Byte) : parseFn p (bs ++ t) = .pair (groupsValue bs) t :=
  parseFn_eq_pair_iff.2 ⟨bs.length, scanLoop_append_of_ok t (scan_isVarint hvarint hw), List.drop_left.symm⟩

theorem parseFn_enc_append (hv : p.valueBits.holds v = true) (t : List Byte) :
    parseFn p (Machine.enc v ++ t) = .pair v t := by
  have h := parseFn_isVarint_append (p := p) (isVarint_enc v)
  rw [groupsValue_enc] at h
  exact h hv t

/-- Settles O38: `enc v` is a varint of the value `v`. -/
theorem parseInvertsEncodeOnAPrefix : Obligations.ParseInvertsEncodeOnAPrefix :=
  fun _ _ t hv => parseFn_enc_append hv t

/-! ### DECODE by PARSE -/

/-- Where PARSE is `Ok`, DECODE differs from it on a nonempty remainder only (42_parse.md R135). -/
theorem decodeFn_of_parseFn_pair (h : parseFn p bs = .pair v r) :
    decodeFn p bs = if p.decodeStrict = true ∧ r ≠ [] then .error .trailingData else .value v := by
  obtain ⟨c, hs, rfl⟩ := parseFn_eq_pair_iff.1 h
  simp [decodeFn, hs]

theorem decodeFn_of_parseFn_error (h : parseFn p bs = .error e) : decodeFn p bs = .error e := by
  simp [decodeFn, parseFn_eq_error_iff.1 h]

/-- Settles O39: the outcome of PARSE determines that of DECODE. -/
theorem decodeIsParseWithoutRemainder : Obligations.DecodeIsParseWithoutRemainder := by
  intro p s
  rcases parseFn_pair_or_error p s with ⟨v, r, hparse⟩ | ⟨e, hparse, hkind⟩
  · have hdecode := decodeFn_of_parseFn_pair hparse
    rw [hparse, hdecode]
    by_cases hr : r = []
    · simp [hr]
    · refine ⟨fun hp => ?_, fun hp => by simp [hp]⟩
      rw [if_pos ⟨hp, hr⟩]
      refine ⟨by simp [hr], by simp [hr], ?_⟩
      rintro e (rfl | rfl) <;> simp
  · rw [hparse, decodeFn_of_parseFn_error hparse]
    have htrailing : e ≠ .trailingData := by rcases hkind with rfl | rfl <;> nofun
    simp [htrailing]

/-! ### A stream of values -/

/-- One PARSE of the HOST's loop, where there is input left (42_parse.md R133). -/
theorem parseStream_succ_of_pair (n : Nat) (hne : bs ≠ []) (h : parseFn p bs = .pair v r) :
    parseStream p (n + 1) bs = (v :: (parseStream p n r).1, (parseStream p n r).2) := by
  simp [parseStream, hne, h]

/-- The HOST's loop takes the varints of a stream off its front one by one. -/
theorem parseStream_flatMap_enc {vs : List Nat} (rest : List Byte) (h : ∀ v ∈ vs, p.valueBits.holds v = true) :
    parseStream p vs.length (vs.flatMap Machine.enc ++ rest) = (vs, rest) := by
  induction vs with
  | nil => rfl
  | cons v vs ih =>
    obtain ⟨hv, hvs⟩ := List.forall_mem_cons.1 h
    rw [List.flatMap_cons, List.append_assoc, List.length_cons,
      parseStream_succ_of_pair _ (List.append_ne_nil_of_left_ne_nil (enc_ne_nil v) _) (parseFn_enc_append hv _), ih hvs]

/-- Settles O43: the loop's induction on the values, and a scan that finds no byte. -/
theorem streamsParseBack : Obligations.StreamsParseBack :=
  fun _ _ rest h => ⟨parseStream_flatMap_enc rest h, parseFn_eq_error_iff.2 rfl⟩

end Sys2Proof.Machine
end

section
/-! PROOFS. The errors at function level, namely which input makes `scan` raise which error and which operation shows
it, and the error entry of both units (60_exceptions.md R145 to R154). -/

namespace Sys2Proof.Machine

variable {w : Width} {p : Params} {b : Byte} {bs : List Byte} {i : Nat} {e : Err}

/-! ### TruncatedInput -/

/-- From the bytes `pre` on, the loop finds no TERM byte and no overflow exactly where only CONT bytes follow and the
value of all groups is of the width (60_exceptions.md R147). -/
theorem scanLoop_eq_truncatedInput_iff {pre : List Byte} (hpre : w.holds (groupsValue pre) = true) :
    scanLoop w (groupsValue pre) (7 * pre.length) pre.length bs = .error .truncatedInput ↔
      (∀ x ∈ bs, contBit x = true) ∧ w.holds (groupsValue (pre ++ bs)) = true := by
  induction bs generalizing pre with
  | nil => simp [scanLoop, hpre]
  | cons b bs ih =>
    rw [scanLoop_cons, List.forall_mem_cons]
    split
    · next hb =>
      have hwide : w.holds (groupsValue (pre ++ b :: bs)) ≠ true := fun h => by
        rw [holds_mono (placeGroup_le_groupsValue pre b bs) h] at hb
        cases hb
      simp [hwide]
    · next hb =>
      split
      · next hc =>
        rw [ih (holds_groupsValue_snoc hpre (Bool.eq_true_of_not_eq_false hb)), ← List.append_cons]
        simp [hc]
      · next hc => simp [hc]

/-- Settles O33: the loop from its start, where no group has been read. -/
theorem truncatedInputIffNoTermByte : Obligations.TruncatedInputIffNoTermByte :=
  fun w _ => scanLoop_eq_truncatedInput_iff (pre := []) (holds_zero w)

/-! ### ValueOverflow -/

/-- A group of `bs`, whose first byte has the index `i`, leaves the width at its position, and only CONT bytes stand
before it (60_exceptions.md R149). -/
def OverflowsFrom (w : Width) (i : Nat) (bs : List Byte) : Prop :=
  ∃ (pre : List Byte) (b : Byte) (post : List Byte), bs = pre ++ b :: post ∧ (∀ x ∈ pre, contBit x = true) ∧
    w.holds (placeGroup (groupOf b) (7 * (i + pre.length))) = false

theorem not_overflowsFrom_nil : ¬ OverflowsFrom w i [] := by
  rintro ⟨pre, b, post, h, -⟩
  exact absurd h.symm (List.append_ne_nil_of_right_ne_nil pre (List.cons_ne_nil b post))

/-- The group is that of the first byte, or the first byte is a CONT byte before it. -/
theorem overflowsFrom_cons : OverflowsFrom w i (b :: bs) ↔
    w.holds (placeGroup (groupOf b) (7 * i)) = false ∨ contBit b = true ∧ OverflowsFrom w (i + 1) bs := by
  constructor
  · rintro ⟨pre, c, post, heq, hcont, hwide⟩
    cases pre with
    | nil =>
      obtain ⟨rfl, rfl⟩ := List.cons.inj heq
      exact .inl hwide
    | cons x pre =>
      obtain ⟨rfl, rfl⟩ := List.cons.inj heq
      obtain ⟨hb, hpre⟩ := List.forall_mem_cons.1 hcont
      rw [List.length_cons, Nat.add_comm pre.length, ← Nat.add_assoc] at hwide
      exact .inr ⟨hb, pre, c, post, rfl, hpre, hwide⟩
  · rintro (hwide | ⟨hb, pre, c, post, rfl, hpre, hwide⟩)
    · exact ⟨[], b, bs, rfl, List.forall_mem_nil _, hwide⟩
    · rw [Nat.add_assoc, Nat.add_comm 1, ← List.length_cons (a := b)] at hwide
      exact ⟨b :: pre, c, post, rfl, List.forall_mem_cons.2 ⟨hb, hpre⟩, hwide⟩

/-- Whether the loop overflows depends on the position and not on the accumulator (41_decode.md R118). -/
theorem scanLoop_eq_valueOverflow_iff {acc j : Nat} :
    scanLoop w acc (7 * i) j bs = .error .valueOverflow ↔ OverflowsFrom w i bs := by
  induction bs generalizing acc i j with
  | nil => simp [scanLoop, not_overflowsFrom_nil]
  | cons b bs ih =>
    simp only [scanLoop, overflowsWidth_eq, Bool.not_eq_true', overflowsFrom_cons]
    split
    · next hwide => simp [hwide]
    · next hwide =>
      split
      · next hc =>
        rw [← Nat.mul_succ, ih]
        simp [hwide, hc]
      · next hc => simp [hwide, hc]

theorem scan_eq_valueOverflow_iff : scan w bs = .error .valueOverflow ↔ OverflowsFrom w 0 bs :=
  scanLoop_eq_valueOverflow_iff (i := 0)

theorem not_overflowsFrom_inf : ¬ OverflowsFrom .inf i bs := by
  rintro ⟨_, _, _, _, _, hwide⟩
  cases hwide

/-- Settles O34: the loop from its start; every number is of the width `inf`. -/
theorem valueOverflowIffAGroupLeavesTheWidth : Obligations.ValueOverflowIffAGroupLeavesTheWidth := by
  refine ⟨fun w s => ?_, fun s h => not_overflowsFrom_inf (scan_eq_valueOverflow_iff.1 h)⟩
  rw [scan_eq_valueOverflow_iff]
  simp only [OverflowsFrom, placeGroup, Nat.zero_add]

/-! ### The table of errors -/

theorem encodeFn_eq_error_iff {v : Int} : encodeFn v = .error e ↔ v < 0 ∧ e = .invalidInput := by
  unfold encodeFn
  split
  · next hv => simp [hv, eq_comm]
  · next hv => simp [hv]

/-- An error of DECODE is one of `scan`, or its own for bytes after the varint under the strict contract (41_decode.md
R113). -/
theorem decodeFn_eq_error_iff : decodeFn p bs = .error e ↔
    scan p.valueBits bs = .error e ∨
      e = .trailingData ∧ p.decodeStrict = true ∧ ∃ v c, scan p.valueBits bs = .ok (v, c) ∧ c < bs.length := by
  unfold decodeFn
  split
  · next hs => simp [hs]
  · next v c hs =>
    split
    · next htrail => simp [hs, htrail, eq_comm]
    · next htrail => simpa [hs] using fun _ hp => Nat.not_lt.1 fun hlt => htrail ⟨hp, hlt⟩

theorem scan_ne_of_ne (htrunc : e ≠ .truncatedInput) (hover : e ≠ .valueOverflow) :
    scan w bs ≠ .error e := fun h =>
  (scanLoop_error_cases h).elim htrunc hover

/-- Settles O36: the errors of DECODE and PARSE are those of `scan`, which raises two, and DECODE's `TrailingData`. -/
theorem errorsAreThoseOfTheTable : Obligations.ErrorsAreThoseOfTheTable := by
  refine ⟨fun v e => encodeFn_eq_error_iff, fun p s => ?_⟩
  have hinvalid : scan p.valueBits s ≠ .error .invalidInput := scan_ne_of_ne nofun nofun
  have htrailing : scan p.valueBits s ≠ .error .trailingData := scan_ne_of_ne nofun nofun
  simp [decodeFn_eq_error_iff, parseFn_eq_error_iff, hinvalid, htrailing]

/-! ### Error entry -/

/-- Settles O54: error entry updates the one unit, and DEC's result registers are not among what it writes. -/
theorem errorEntry : Obligations.ErrorEntry :=
  fun s e => ⟨⟨rfl, rfl, rfl, rfl, rfl, rfl⟩, decErrorLeaves_raise e s⟩

end Sys2Proof.Machine
end

section
/-! PROOFS. Commands that are held off, commands that a reset aborts, and the end of every command that runs
(70_reset_and_hazards.md R170, R171, R175, R182, R183). -/

namespace Sys2Proof.Machine

variable {s : State} {p : Params} {d : Dec}

/-! ### A busy unit -/

theorem decAccept_of_run (m : DecMode) (bs : List Byte) (h : s.dec.state = .run) : decAccept m bs s = .next s := by
  rw [decAccept, h]

/-- Settles O27: the accept step of a unit in `RUN` does nothing. -/
theorem busyUnitsHoldCommandsOff : Obligations.BusyUnitsHoldCommandsOff := by
  refine fun s => ⟨fun h v => ?_, fun h bs => ⟨decAccept_of_run .decode bs h, decAccept_of_run .parse bs h⟩⟩
  rw [exec, execEncode, encAccept, h]

/-! ### A reset turn -/

theorem portReady_of_reset (h : nextTurn s = .reset) : portReady s = false := by
  unfold portReady
  split
  · rfl
  · rw [h]
    rfl

/-- Settles O53: the turn is no unit's and not the HOST's, and after it both units are as at reset. -/
theorem resetStepAbortsEveryCommand : Obligations.ResetStepAbortsEveryCommand := by
  intro s us hus
  have hnext : nextTurn s = .reset := nextTurn_of_cons hus
  have hstep : step s = .next (resetStep { s with host := { s.host with turns := us } }) := by
    rw [step, hnext, dropTurn_of_cons hus]
    rfl
  have hread : ¬ readsIn s = true := fun h => absurd (hnext.symm.trans (readsIn_iff.1 h).1) nofun
  have hwrite : ¬ writesOut s = true := fun h => absurd (hnext.symm.trans (writesOut_iff.1 h).1) nofun
  exact ⟨portReady_of_reset hnext, Bool.eq_false_of_not_eq_true hread, Bool.eq_false_of_not_eq_true hwrite, _, hstep,
    rfl, rfl, rfl, rfl, rfl, encOutcome_of_not_done rfl, decOutcome_of_not_done rfl⟩

/-! ### The end of a command -/

/-- A running DEC of the invariant is in the loop of `scan` on its input: the bytes read are CONT bytes whose value is
the accumulator, a number of the width, so `scan` has passed them (41_decode.md R121). -/
theorem Dec.Inv.inLoop (h : d.Inv p) (hs : d.state = .run) : d.InLoop p d.inBuf.bytes := by
  obtain ⟨-, hlen⟩ := (Memory.isSequence_iff _ _).1 h.in_sequence
  have hle : d.idx ≤ d.inBuf.bytes.length := hlen ▸ h.run_idx hs
  have hpass : passesFrom p.valueBits 0 (d.inBuf.bytes.take d.idx) = true :=
    passesFrom_of_holds (pre := []) (h.run_cont hs) (h.run_acc hs ▸ h.acc_holds)
  have hscan := scanLoop_passes p.valueBits [] _ (d.inBuf.bytes.drop d.idx) hpass
  rw [List.take_append_drop, List.nil_append, List.length_take_of_le hle, ← h.run_acc hs, ← h.run_shift hs] at hscan
  exact ⟨hle, h.run_shift hs, h.run_acc hs, h.run_cont hs, h.acc_holds, hscan.symm⟩

theorem Dec.Inv.scans (h : d.Inv p) (hs : d.state = .run) : d.Scans p d.mode d.inBuf.bytes := by
  obtain ⟨hseq, hlen⟩ := (Memory.isSequence_iff _ _).1 h.in_sequence
  obtain ⟨hdone, -⟩ := h.run_status hs
  refine ⟨?_, by simp [hdone, busy, hs], h.inLoop, fun hidle => absurd (hs.symm.trans hidle) nofun⟩
  rw [← hseq, hlen]
  rfl

/-- After as many turns as `stepsLeft` counts the command has ended. -/
theorem Dec.Scans.iterate_scanTurn_idle {m : DecMode} {bs : List Byte} (h : d.Scans p m bs) :
    ((Dec.scanTurn p)^[d.stepsLeft p bs] d).state = .idle := by
  have hleft := h.stepsLeft_iterate_scanTurn (d.stepsLeft p bs)
  rw [Nat.sub_self] at hleft
  cases hs : ((Dec.scanTurn p)^[d.stepsLeft p bs] d).state with
  | idle => rfl
  | run => exact absurd hleft (stepsLeft_pos_iff.2 hs).ne'

/-- Settles O58: ENC takes a turn for each byte still to be written, DEC one for each step of `scan` still to come. -/
theorem everyCommandEnds : Obligations.EveryCommandEnds := by
  intro s hs
  constructor
  · intro hrun
    have hidle := s.enc.iterate_emitTurn_idle
    have hle : s.enc.pending.length ≤ varintLength s.enc.rem := by rw [Enc.pending_of_run hrun, length_enc]
    exact ⟨_, _, hle, hs.enc.takeTurns_enc hs.build _, hidle,
      ((hs.enc.emits hrun).iterate_emitTurn _).done_of_idle hidle⟩
  · intro hrun
    have hscans := hs.dec.scans hrun
    have hidle := hscans.iterate_scanTurn_idle
    have hle : s.dec.stepsLeft s.build s.dec.inBuf.bytes ≤ s.dec.inLen - s.dec.idx + 1 := by
      have h := scanStepsFrom_le s.build.valueBits s.dec.shift (s.dec.inBuf.bytes.drop s.dec.idx)
      obtain ⟨-, hlen⟩ := (Memory.isSequence_iff _ _).1 hs.dec.in_sequence
      rwa [← Dec.stepsLeft_of_run hrun, List.length_drop, hlen] at h
    exact ⟨_, _, hle, hscans.takeTurns_dec _, hidle, (hscans.iterate_scanTurn _).done_of_idle hidle⟩

end Sys2Proof.Machine
end

section
/-! PROOFS. The command that a unit accepted last, in any interleaving: where in a run a command has left the port, what
its unit holds then, and the outcome that the unit shows until it accepts again (10_state.md R32,
70_reset_and_hazards.md R184). -/

namespace Sys2Proof.Machine

variable {s t : State} {p : Params} {c : Command} {e : Enc} {m : DecMode} {bs : List Byte}

/-! ### The turn that accepts a command -/

/-- A turn takes at most one command from the port, and only the HOST's turn takes one (70_reset_and_hazards.md
R175). -/
theorem takeTurn_cmds_cases {u : Turn} (h : takeTurn u s = .next t) :
    t.host.cmds = s.host.cmds ∨ (u = .host ∧ ∃ c, s.host.cmds = c :: t.host.cmds) := by
  cases u with
  | reset => cases h; exact .inl rfl
  | enc => rw [takeTurn_enc_next h]; exact .inl rfl
  | dec => rw [takeTurn_dec_next h]; exact .inl rfl
  | host =>
    rcases hostTurn_accepts h with rfl | ⟨c, cs, _, hc, -, -, -, rfl⟩ | ⟨c, cs, _, _, hc, -, -, -, rfl⟩
    · exact .inl rfl
    · exact .inr ⟨rfl, c, by simp [hc]⟩
    · exact .inr ⟨rfl, c, by simp [hc]⟩

/-- A turn of the HOST in which the command at the head of the port leaves it. -/
def Accepts (c : Command) (s t : State) : Prop := takeTurn .host s = .next t ∧ s.host.cmds = c :: t.host.cmds

/-- The turns `us` lead from `s` to `t`, and one of them accepts `c`; the commands that leave the port after it are
`rest`. -/
def AcceptsIn (c : Command) (rest : List Command) (us : List Turn) (s t : State) : Prop :=
  ∃ (r r' : State) (us' : List Turn), r.build = s.build ∧ Accepts c r r' ∧ r'.host.cmds = rest ++ t.host.cmds ∧
    us' ⊆ us ∧ takeTurns us' r' = .next t

theorem AcceptsIn.cons {u : Turn} {us : List Turn} {s' : State} {rest : List Command} (hturn : takeTurn u s = .next s')
    (h : AcceptsIn c rest us s' t) : AcceptsIn c rest (u :: us) s t := by
  obtain ⟨r, r', us', hb, hacc, hnext, hsub, hrun⟩ := h
  exact ⟨r, r', us', hb.trans (takeTurn_build hturn), hacc, hnext,
    List.Subset.trans hsub (List.subset_cons_self u us), hrun⟩

/-- A command that has left the port in a run was accepted in one of its turns. -/
theorem acceptsIn_of_takeTurns {us : List Turn} {pre rest : List Command} (h : takeTurns us s = .next t)
    (hc : s.host.cmds = pre ++ c :: (rest ++ t.host.cmds)) : AcceptsIn c rest us s t := by
  induction us generalizing s pre with
  | nil =>
    rw [takeTurns_nil.1 h] at hc
    have hlen := congrArg List.length hc
    simp only [List.length_append, List.length_cons] at hlen
    omega
  | cons u us ih =>
    obtain ⟨s', hturn, hrest⟩ := (takeTurns_cons u us).1 h
    rcases takeTurn_cmds_cases hturn with hsame | ⟨rfl, x, hx⟩
    · exact (ih hrest (hsame.trans hc)).cons hturn
    · cases pre with
      | nil =>
        obtain ⟨rfl, hnext⟩ := List.cons.inj (hx.symm.trans hc)
        exact ⟨s, s', us, rfl, ⟨hturn, hx⟩, hnext, List.subset_cons_self .host us, hrest⟩
      | cons y pre =>
        obtain ⟨-, hnext⟩ := List.cons.inj (hx.symm.trans hc)
        exact (ih hrest hnext).cons hturn

/-- The instruction of each operation of DEC. -/
def DecMode.operation (m : DecMode) (bs : List Byte) : Instr :=
  match m with
  | .decode => .decode bs
  | .parse => .parse bs

theorem DecMode.operation_ne_encode (m : DecMode) (bs : List Byte) (v : Int) : m.operation bs ≠ .encode v := by
  cases m <;> nofun

theorem DecMode.operation_inj {m' : DecMode} {bs' : List Byte} (h : m.operation bs = m'.operation bs') :
    m = m' ∧ bs = bs' := by
  cases m <;> cases m' <;> cases h <;> exact ⟨rfl, rfl⟩

/-- What the HOST's turn does with a command that it does not leave on the port. -/
theorem Accepts.cases (h : Accepts c s t) :
    (∃ v, decodeCommand s.build c = .ok (.encode v) ∧
      t.enc = if v < 0 then s.enc.fail .invalidInput else s.enc.begin v.toNat) ∨
    (∃ m bs, decodeCommand s.build c = .ok (m.operation bs) ∧ t.dec = s.dec.begin m bs) := by
  obtain ⟨hturn, hc⟩ := h
  rcases hostTurn_accepts hturn with rfl | ⟨c', cs, v, hc', hi, -, -, rfl⟩ | ⟨c', cs, m, bs, hc', hi, -, -, rfl⟩
  · exact absurd hc (List.cons_ne_self c _).symm
  · obtain ⟨rfl, -⟩ := List.cons.inj (hc'.symm.trans hc)
    exact .inl ⟨v, hi, rfl⟩
  · obtain ⟨rfl, -⟩ := List.cons.inj (hc'.symm.trans hc)
    exact .inr ⟨m, bs, hi, rfl⟩

theorem Accepts.enc_eq {v : Int} (h : Accepts c s t) (hi : decodeCommand s.build c = .ok (.encode v)) :
    t.enc = if v < 0 then s.enc.fail .invalidInput else s.enc.begin v.toNat := by
  rcases h.cases with ⟨v', hi', ht⟩ | ⟨m, bs, hi', -⟩
  · cases hi.symm.trans hi'
    exact ht
  · exact absurd (Except.ok.inj (hi'.symm.trans hi)) (m.operation_ne_encode bs v)

theorem Accepts.dec_eq (h : Accepts c s t) (hi : decodeCommand s.build c = .ok (m.operation bs)) :
    t.dec = s.dec.begin m bs := by
  rcases h.cases with ⟨v, hi', -⟩ | ⟨m', bs', hi', ht⟩
  · exact absurd (Except.ok.inj (hi.symm.trans hi')) (m.operation_ne_encode bs v)
  · obtain ⟨rfl, rfl⟩ := DecMode.operation_inj (Except.ok.inj (hi.symm.trans hi'))
    exact ht

/-- With none of its commands among those that leave the port a unit accepts none. -/
theorem noneAcceptedFor_of_cmds {u : Agent} {cs : List Command} (hc : s.host.cmds = cs ++ t.host.cmds)
    (h : commandsFor u cs = []) : NoneAcceptedFor u s t := by
  intro ds hds
  rwa [List.append_cancel_right (hds.symm.trans hc)]

/-! ### ENC -/

/-- ENC between the acceptance of the operand `v`, whatever its sign, and the next one. -/
def Enc.Performs (v : Int) (e : Enc) : Prop :=
  if v < 0 then e.state = .idle ∧ e.done = true ∧ e.err = some .invalidInput else e.Emits v.toNat

theorem Enc.performs_accept (e : Enc) (v : Int) :
    (if v < 0 then e.fail .invalidInput else e.begin v.toNat).Performs v := by
  unfold Performs
  split
  · exact ⟨rfl, rfl, rfl⟩
  · exact e.emits_begin v.toNat

theorem Enc.Performs.emitTurn {v : Int} (h : e.Performs v) : e.emitTurn.Performs v := by
  unfold Performs at h ⊢
  split at h
  · next hv =>
    obtain ⟨hidle, hresult⟩ := h
    rw [if_pos hv, emitTurn_of_idle hidle]
    exact ⟨hidle, hresult⟩
  · next hv =>
    rw [if_neg hv]
    exact Enc.Emits.emitTurn h

theorem encOutcome_of_emits {v : Nat} (h : s.enc.Emits v) :
    encOutcome s = if s.enc.state = .idle then some (.bytes (enc v)) else none := by
  cases hs : s.enc.state with
  | idle =>
    simp [encOutcome, Enc.outResult, Enc.ok, h.done_of_idle hs, h.err, Memory.readSeq_isSequence h.out_sequence,
      h.bytes_of_idle hs]
  | run => exact encOutcome_of_not_done (by simp [h.done, Enc.busy, hs])

theorem encOutcome_of_performs {v : Int} (h : s.enc.Performs v) :
    encOutcome s = if s.enc.state = .idle then some (encodeFn v) else none := by
  unfold Enc.Performs at h
  unfold encodeFn
  split at h
  · next hv =>
    obtain ⟨hidle, hdone, herr⟩ := h
    rw [encOutcome_of_err hdone herr, if_pos hidle, if_pos hv]
  · next hv => rw [encOutcome_of_emits h, if_neg hv]

theorem performs_of_takeTurns {v : Int} {us : List Turn} (hus : ∀ u ∈ us, u ≠ .reset) (h : s.enc.Performs v)
    (ht : takeTurns us s = .next t) (hn : NoneAcceptedFor .enc s t) : t.enc.Performs v := by
  refine takeTurns_keeps_of_noneAccepted (P := fun r => r.enc.Performs v) (fun u hu r r' hr h hn => ?_) h ht hn
  rcases takeTurn_enc_of_noneAccepted (hus u hu) h hn with heq | heq
  · rwa [heq]
  · rw [heq]
    exact hr.emitTurn

/-! ### DEC -/

/-- While a command runs there is no outcome (10_state.md R28), so what an ended one shows is all there is to say. -/
theorem decOutcome_of_scans {r : CmdResult} (h : s.dec.Scans p m bs)
    (hidle : s.dec.state = .idle → decOutcome s = some r) :
    decOutcome s = if s.dec.state = .idle then some r else none := by
  cases hs : s.dec.state with
  | idle => exact hidle hs
  | run => exact decOutcome_of_not_done (by simp [h.done, Dec.busy, hs])

theorem scans_of_takeTurns {us : List Turn} (hus : ∀ u ∈ us, u ≠ .reset) (h : s.dec.Scans s.build m bs)
    (ht : takeTurns us s = .next t) (hn : NoneAcceptedFor .dec s t) : t.dec.Scans s.build m bs := by
  obtain ⟨-, hscans⟩ : t.build = s.build ∧ t.dec.Scans s.build m bs := by
    refine takeTurns_keeps_of_noneAccepted (P := fun r => r.build = s.build ∧ r.dec.Scans s.build m bs)
      (fun u hu r r' ⟨hb, hr⟩ h hn => ⟨(takeTurn_build h).trans hb, ?_⟩) ⟨rfl, h⟩ ht hn
    rcases takeTurn_dec_of_noneAccepted (hus u hu) h hn with heq | heq
    · rwa [heq]
    · rw [heq, hb]
      exact hr.scanTurn
  exact hscans

/-! ### The outcome -/

/-- Settles O47: the command was accepted in a turn of the run, its unit began it there, and has accepted no other
since. -/
theorem outcomeIsThatOfTheLastCommandAccepted : Obligations.OutcomeIsThatOfTheLastCommandAccepted := by
  intro s t us pre mid c hus ht hc
  rw [List.append_assoc, List.cons_append] at hc
  obtain ⟨r, r', us', hbuild, hacc, hnext, hsub, hrun⟩ := acceptsIn_of_takeTurns ht hc
  have hus' (u : Turn) (hu : u ∈ us') : u ≠ .reset := hus u (hsub hu)
  have hdec {m : DecMode} {bs : List Byte} (hi : decodeCommand s.build c = .ok (m.operation bs))
      (hmid : commandsFor .dec mid = []) : t.dec.Scans s.build m bs := by
    rw [← hbuild] at hi
    have hbuild' : r'.build = s.build := (takeTurn_build hacc.1).trans hbuild
    rw [← hbuild']
    refine scans_of_takeTurns hus' ?_ hrun (noneAcceptedFor_of_cmds hnext hmid)
    rw [hacc.dec_eq hi]
    exact Dec.scans_begin ..
  refine ⟨fun v hi hmid => ?_, fun bs hi hmid => ?_, fun bs hi hmid => ?_⟩
  · rw [← hbuild] at hi
    refine encOutcome_of_performs (performs_of_takeTurns hus' ?_ hrun (noneAcceptedFor_of_cmds hnext hmid))
    rw [hacc.enc_eq hi]
    exact r.enc.performs_accept v
  · have hscans := hdec (m := .decode) hi hmid
    exact decOutcome_of_scans hscans (decOutcome_of_scans_decode hscans)
  · have hscans := hdec (m := .parse) hi hmid
    exact decOutcome_of_scans hscans (decOutcome_of_scans_parse hscans)

end Sys2Proof.Machine
end

section
/-! PROOFS. Each unit alone: a run in which the units move in any order, and a HOST may give either its commands, is for
each unit the run of its own turns and of the HOST's turns in which it accepts a command (70_reset_and_hazards.md R184,
10_state.md R22). -/

namespace Sys2Proof.Machine

variable {s t a : State} {u : Agent}

/-! ### Turns of the units only -/

/-- Each unit's turns apply its own function to its own state, so only their number counts. -/
theorem State.Inv.takeTurns_units {us : List Turn} (hs : s.Inv) (hus : ∀ x ∈ us, x = .enc ∨ x = .dec) :
    takeTurns us s = .next { s with
      enc := Enc.emitTurn^[us.count .enc] s.enc, dec := (Dec.scanTurn s.build)^[us.count .dec] s.dec } := by
  induction us generalizing s with
  | nil => rfl
  | cons x us ih =>
    obtain ⟨hx, hrest⟩ := List.forall_mem_cons.1 hus
    rw [takeTurns_cons]
    rcases hx with rfl | rfl
    · have hturn := hs.takeTurn_enc
      refine ⟨_, hturn, ?_⟩
      rw [ih (hs.takeTurn hturn) hrest]
      simp
    · have hturn := hs.takeTurn_dec
      refine ⟨_, hturn, ?_⟩
      rw [ih (hs.takeTurn hturn) hrest]
      simp

/-! ### No fault in a run -/

theorem State.Inv.noFault_takeTurns (hs : s.Inv) (us : List Turn) : NoFault (takeTurns us s) := by
  induction us generalizing s with
  | nil => trivial
  | cons x us ih =>
    have hx := hs.noFault_takeTurn x
    rw [takeTurns]
    cases ht : Machine.takeTurn x s with
    | next s' => exact ih (hs.takeTurn ht)
    | fault r => rwa [ht] at hx
    | refused r => trivial

/-! ### The run of one unit -/

/-- The turn of a unit. -/
def Agent.turn : Agent → Turn
  | .enc => .enc
  | .dec => .dec

theorem Agent.turn_inj {x : Agent} (h : x.turn = u.turn) : x = u := by
  cases x with
  | enc => cases u with
    | enc => rfl
    | dec => cases h
  | dec => cases u with
    | enc => cases h
    | dec => rfl

theorem Agent.host_ne_turn (u : Agent) : Turn.host ≠ u.turn := by cases u <;> nofun

/-- The unit is in the two states the same. -/
def SameUnit : Agent → State → State → Prop
  | .enc, s, a => a.enc = s.enc
  | .dec, s, a => a.dec = s.dec

/-- `a` is `s` as the unit would find it had the HOST presented its commands only; the other unit may be anywhere in its
invariant. -/
structure AloneAt (u : Agent) (s a : State) : Prop where
  inv : a.Inv
  build : a.build = s.build
  unit : SameUnit u s a
  cmds : a.host.cmds = commandsFor u s.host.cmds

theorem aloneAt_presentingOnlyTo (u : Agent) (hs : s.Inv) : AloneAt u s (s.presentingOnlyTo u) := by
  refine ⟨⟨hs.build, hs.enc, hs.dec⟩, rfl, ?_, rfl⟩
  cases u <;> rfl

/-- The unit's own turn does the same to both. -/
theorem AloneAt.own_turn (h : AloneAt u s a) (ht : takeTurn u.turn s = .next t) :
    ∃ b, takeTurn u.turn a = .next b ∧ AloneAt u t b := by
  cases u with
  | enc =>
    have hturn := h.inv.takeTurn_enc
    rw [takeTurn_enc_next ht]
    exact ⟨_, hturn, h.inv.takeTurn hturn, h.build, congrArg Enc.emitTurn h.unit, h.cmds⟩
  | dec =>
    have hturn := h.inv.takeTurn_dec
    have hunit : a.dec.scanTurn a.build = s.dec.scanTurn s.build := congrArg₂ Dec.scanTurn h.build h.unit
    rw [takeTurn_dec_next ht]
    exact ⟨_, hturn, h.inv.takeTurn hturn, h.build, hunit, h.cmds⟩

/-- The other unit's turn is none of the unit's. -/
theorem AloneAt.other_turn {x : Agent} (h : AloneAt u s a) (hx : x ≠ u) (ht : takeTurn x.turn s = .next t) :
    AloneAt u t a := by
  cases x with
  | enc =>
    cases u with
    | enc => exact absurd rfl hx
    | dec => rw [takeTurn_enc_next ht]; exact ⟨h.inv, h.build, h.unit, h.cmds⟩
  | dec =>
    cases u with
    | enc => rw [takeTurn_dec_next ht]; exact ⟨h.inv, h.build, h.unit, h.cmds⟩
    | dec => exact absurd rfl hx

/-- A command at the head of the port that addresses an idle ENC is accepted. -/
theorem takeTurn_host_of_encode {c : Command} {cs : List Command} {v : Int} (hc : s.host.cmds = c :: cs)
    (hi : decodeCommand s.build c = .ok (.encode v)) (ho : opUnit c.op = some .enc) (hs : s.enc.state = .idle) :
    takeTurn .host s =
      .next { dropCmd s with enc := if v < 0 then s.enc.fail .invalidInput else s.enc.begin v.toNat } := by
  have hready : cmdReady s c.op = true := by simp [cmdReady, ho, unitIdle, hs]
  exact (hostTurn_of_ready hc hi hready).trans (exec_encode_of_idle v hs)

theorem exec_operation_of_idle (m : DecMode) (bs : List Byte) (hs : s.dec.state = .idle) :
    exec (m.operation bs) s = .next { s with dec := s.dec.begin m bs } := by
  cases m with
  | decode => exact decAccept_of_idle .decode bs hs
  | parse => exact decAccept_of_idle .parse bs hs

/-- A command at the head of the port that addresses an idle DEC is accepted. -/
theorem takeTurn_host_of_operation {c : Command} {cs : List Command} {m : DecMode} {bs : List Byte}
    (hc : s.host.cmds = c :: cs) (hi : decodeCommand s.build c = .ok (m.operation bs))
    (ho : opUnit c.op = some .dec) (hs : s.dec.state = .idle) :
    takeTurn .host s = .next { dropCmd s with dec := s.dec.begin m bs } := by
  have hready : cmdReady s c.op = true := by simp [cmdReady, ho, unitIdle, hs]
  exact (hostTurn_of_ready hc hi hready).trans (exec_operation_of_idle m bs hs)

/-- The HOST's turn is none of the unit's, unless the unit accepts a command: that command is then the next one for the
unit alone as well. -/
theorem AloneAt.host_turn (h : AloneAt u s a) (ht : takeTurn .host s = .next t) :
    AloneAt u t a ∨ ∃ b, takeTurn .host a = .next b ∧ AloneAt u t b := by
  rcases hostTurn_accepts ht with rfl | ⟨c, cs, v, hc, hi, ho, hs, rfl⟩ | ⟨c, cs, m, bs, hc, hi, ho, hs, rfl⟩
  · exact .inl h
  · have hcmds := h.cmds
    rw [hc] at hcmds
    cases u with
    | enc =>
      rw [commandsFor_cons_own cs ho] at hcmds
      have hunit : a.enc = s.enc := h.unit
      have hturn := takeTurn_host_of_encode hcmds (h.build ▸ hi) ho (hunit ▸ hs)
      exact .inr ⟨_, hturn, h.inv.takeTurn hturn, h.build, by simp [SameUnit, hunit], by simp [hcmds, hc]⟩
    | dec =>
      rw [commandsFor_cons_other cs (by simp [ho])] at hcmds
      exact .inl ⟨h.inv, h.build, h.unit, by simp [hcmds, hc]⟩
  · have hcmds := h.cmds
    rw [hc] at hcmds
    cases u with
    | enc =>
      rw [commandsFor_cons_other cs (by simp [ho])] at hcmds
      exact .inl ⟨h.inv, h.build, h.unit, by simp [hcmds, hc]⟩
    | dec =>
      rw [commandsFor_cons_own cs ho] at hcmds
      have hunit : a.dec = s.dec := h.unit
      have hturn := takeTurn_host_of_operation hcmds (h.build ▸ hi) ho (hunit ▸ hs)
      exact .inr ⟨_, hturn, h.inv.takeTurn hturn, h.build, by simp [SameUnit, hunit], by simp [hcmds, hc]⟩

/-- Every turn but a reset either is none of the unit's, or is taken by the unit alone as well. -/
theorem AloneAt.turn_cases {x : Turn} (h : AloneAt u s a) (hx : x ≠ .reset) (ht : takeTurn x s = .next t) :
    (x ≠ u.turn ∧ AloneAt u t a) ∨
    ((x = u.turn ∨ x = .host) ∧ ∃ b, takeTurn x a = .next b ∧ AloneAt u t b) := by
  have hunit (y : Agent) (ht : takeTurn y.turn s = .next t) :
      (y.turn ≠ u.turn ∧ AloneAt u t a) ∨
      ((y.turn = u.turn ∨ y.turn = .host) ∧ ∃ b, takeTurn y.turn a = .next b ∧ AloneAt u t b) := by
    by_cases hy : y = u
    · subst hy
      exact .inr ⟨.inl rfl, h.own_turn ht⟩
    · exact .inl ⟨fun heq => hy (Agent.turn_inj heq), h.other_turn hy ht⟩
  cases x with
  | reset => exact absurd rfl hx
  | enc => exact hunit .enc ht
  | dec => exact hunit .dec ht
  | host =>
    rcases h.host_turn ht with hskip | htake
    · exact .inl ⟨u.host_ne_turn, hskip⟩
    · exact .inr ⟨.inr rfl, htake⟩

/-- The run of the unit alone: all of its own turns, and those of the HOST's in which it accepts. -/
theorem AloneAt.takeTurns {us : List Turn} (h : AloneAt u s a) (hus : ∀ x ∈ us, x ≠ .reset)
    (ht : takeTurns us s = .next t) :
    ∃ (es : List Turn) (b : State), es.Sublist us ∧ (∀ x ∈ es, x = u.turn ∨ x = .host) ∧
      es.filter (· == u.turn) = us.filter (· == u.turn) ∧ Machine.takeTurns es a = .next b ∧ AloneAt u t b := by
  induction us generalizing s a with
  | nil =>
    rw [takeTurns_nil.1 ht] at h
    exact ⟨[], a, .refl _, nofun, rfl, rfl, h⟩
  | cons x us ih =>
    obtain ⟨hx, hus⟩ := List.forall_mem_cons.1 hus
    obtain ⟨s', hturn, hrest⟩ := (takeTurns_cons x us).1 ht
    rcases h.turn_cases hx hturn with ⟨hne, h'⟩ | ⟨hown, a', hturn', h'⟩
    · obtain ⟨es, b, hsub, hes, hfilter, hrun, hb⟩ := ih h' hus hrest
      refine ⟨es, b, hsub.cons x, hes, ?_, hrun, hb⟩
      rw [hfilter, List.filter_cons_of_neg (by simpa using hne)]
    · obtain ⟨es, b, hsub, hes, hfilter, hrun, hb⟩ := ih h' hus hrest
      refine ⟨x :: es, b, hsub.cons_cons x, List.forall_mem_cons.2 ⟨hown, hes⟩, ?_,
        (takeTurns_cons x es).2 ⟨a', hturn', hrun⟩, hb⟩
      rw [List.filter_cons, List.filter_cons, hfilter]

/-- Settles O46: turns of the units are their functions applied as often as each has a turn, and a run with the HOST's
turns is for each unit a run of that unit alone. -/
theorem interleavingDoesNotMatter : Obligations.InterleavingDoesNotMatter := by
  intro s us hs
  constructor
  · intro hus
    have hfiltered (x : Turn) : ∀ y ∈ us.filter (· == x), y = .enc ∨ y = .dec :=
      fun y hy => hus y (List.mem_of_mem_filter hy)
    have hcount (x : Turn) : (us.filter (· == x)).count x = us.count x := List.count_filter (beq_self_eq_true x)
    refine ⟨_, _, _, hs.takeTurns_units hus, hs.takeTurns_units (hfiltered .enc), hs.takeTurns_units (hfiltered .dec),
      ?_, ?_⟩
    · rw [hcount]
    · rw [hcount]
  · refine fun hus => ⟨hs.noFault_takeTurns us, fun t ht => ⟨?_, ?_⟩⟩
    · obtain ⟨es, b, hsub, hes, hfilter, hrun, hb⟩ := (aloneAt_presentingOnlyTo .enc hs).takeTurns hus ht
      exact ⟨es, b, hsub, hes, hfilter, hrun, hb.unit, hb.cmds⟩
    · obtain ⟨ds, b, hsub, hds, hfilter, hrun, hb⟩ := (aloneAt_presentingOnlyTo .dec hs).takeTurns hus ht
      exact ⟨ds, b, hsub, hds, hfilter, hrun, hb.unit, hb.cmds⟩

end Sys2Proof.Machine
end
